-- ==== Sys2Proof/Word.lean ====
section
/-! DEFINITION. The machine's word types (00_scope.md R6: every value is an unsigned number of stated width). -/

namespace Sys2Proof

/-- One memory byte, general register or timer: 8 bits (10_state.md R21, R22, R27). -/
abbrev Byte := BitVec 8

/-- An instruction word, the program counter, the index register or a stack entry: 16 bits (10_state.md R24 to R26). -/
abbrev Word := BitVec 16

/-- The immediate address field `nnn` of an instruction: 12 bits (30_encoding.md R92). -/
abbrev Imm12 := BitVec 12

/-- A general register index, `V0` to `VF` (10_state.md R22). -/
abbrev RegIdx := Fin 16

/-- A key number, `0x0` to `0xF` (44_keypad_timers.md R200). -/
abbrev KeyIdx := Fin 16

/-- The index of `VF`, the register that holds every flag (10_state.md R23). -/
abbrev vF : RegIdx := 15

end Sys2Proof
end

