-- ==== Sys2Proof/Syntax.lean ====
section
/-! DEFINITION. The instructions: one constructor per row of spec/opcode_table.json (30_encoding.md R96), in its order. -/

namespace Sys2Proof

/-- The 34 instructions (30_encoding.md R96). `x` and `y` are register indices, `nn` and `nnn` immediates (R92, R93),
`n` the row count of `DRW`, a number that WellFormed.lean bounds by 15. -/
inductive Instr where
  /-- `00E0` `CLS` -/
  | cls
  /-- `00EE` `RET` -/
  | ret
  /-- `1nnn` `JP nnn` -/
  | jp (nnn : Imm12)
  /-- `2nnn` `CALL nnn` -/
  | call (nnn : Imm12)
  /-- `3xnn` `SE Vx,nn` -/
  | seImm (x : RegIdx) (nn : Byte)
  /-- `4xnn` `SNE Vx,nn` -/
  | sneImm (x : RegIdx) (nn : Byte)
  /-- `5xy0` `SE Vx,Vy` -/
  | seReg (x y : RegIdx)
  /-- `6xnn` `LD Vx,nn` -/
  | ldImm (x : RegIdx) (nn : Byte)
  /-- `7xnn` `ADD Vx,nn` -/
  | addImm (x : RegIdx) (nn : Byte)
  /-- `8xy0` `LD Vx,Vy` -/
  | ldReg (x y : RegIdx)
  /-- `8xy1` `OR Vx,Vy` -/
  | orReg (x y : RegIdx)
  /-- `8xy2` `AND Vx,Vy` -/
  | andReg (x y : RegIdx)
  /-- `8xy3` `XOR Vx,Vy` -/
  | xorReg (x y : RegIdx)
  /-- `8xy4` `ADD Vx,Vy` -/
  | addReg (x y : RegIdx)
  /-- `8xy5` `SUB Vx,Vy` -/
  | subReg (x y : RegIdx)
  /-- `8xy6` `SHR Vx`; `y` is decoded and ignored (R98) -/
  | shr (x y : RegIdx)
  /-- `8xy7` `SUBN Vx,Vy` -/
  | subnReg (x y : RegIdx)
  /-- `8xyE` `SHL Vx`; `y` is decoded and ignored (R98) -/
  | shl (x y : RegIdx)
  /-- `9xy0` `SNE Vx,Vy` -/
  | sneReg (x y : RegIdx)
  /-- `Annn` `LD I,nnn` -/
  | ldI (nnn : Imm12)
  /-- `Bnnn` `JP V0,nnn` -/
  | jpV0 (nnn : Imm12)
  /-- `Cxnn` `RND Vx,nn` -/
  | rnd (x : RegIdx) (nn : Byte)
  /-- `Dxyn` `DRW Vx,Vy,n` -/
  | drw (x y : RegIdx) (n : Nat)
  /-- `Ex9E` `SKP Vx` -/
  | skp (x : RegIdx)
  /-- `ExA1` `SKNP Vx` -/
  | sknp (x : RegIdx)
  /-- `Fx07` `LD Vx,DT` -/
  | ldVxDt (x : RegIdx)
  /-- `Fx0A` `LD Vx,K` -/
  | ldVxK (x : RegIdx)
  /-- `Fx15` `LD DT,Vx` -/
  | ldDtVx (x : RegIdx)
  /-- `Fx18` `LD ST,Vx` -/
  | ldStVx (x : RegIdx)
  /-- `Fx1E` `ADD I,Vx` -/
  | addI (x : RegIdx)
  /-- `Fx29` `LD F,Vx` -/
  | ldF (x : RegIdx)
  /-- `Fx33` `LD B,Vx` -/
  | ldB (x : RegIdx)
  /-- `Fx55` `LD [I],Vx` -/
  | ldMemVx (x : RegIdx)
  /-- `Fx65` `LD Vx,[I]` -/
  | ldVxMem (x : RegIdx)
  deriving DecidableEq, Repr

end Sys2Proof
end

