-- ==== Sys2Proof/Decode.lean ====
section
/-! DEFINITION. Instruction fields, the decoder, the encoder and the opcode table (30_encoding.md). -/

namespace Sys2Proof

/-! ### Fields (R92) -/

/-- `op = opc[15:12]`, the major opcode. -/
def opField (w : Word) : BitVec 4 := w.extractLsb' 12 4

/-- `x = opc[11:8]`, a register index. -/
def xField (w : Word) : RegIdx := (w.extractLsb' 8 4).toFin

/-- `y = opc[7:4]`, a register index. -/
def yField (w : Word) : RegIdx := (w.extractLsb' 4 4).toFin

/-- `n = opc[3:0]`. -/
def nField (w : Word) : BitVec 4 := w.extractLsb' 0 4

/-- `nn = opc[7:0]`. -/
def nnField (w : Word) : Byte := w.extractLsb' 0 8

/-- `nnn = opc[11:0]`. -/
def nnnField (w : Word) : Imm12 := w.extractLsb' 0 12

/-! ### Decoding (R94) -/

/-- Second level of major opcode `0x0`: the whole word is fixed. -/
def decodeOp0 (w : Word) : Option Instr :=
  if w = 0x00E0#16 then some .cls else if w = 0x00EE#16 then some .ret else none

/-- Second level of major opcode `0x8`, on `n`. -/
def decodeOp8 (n : BitVec 4) (x y : RegIdx) : Option Instr :=
  match n.toNat with
  | 0x0 => some (.ldReg x y)
  | 0x1 => some (.orReg x y)
  | 0x2 => some (.andReg x y)
  | 0x3 => some (.xorReg x y)
  | 0x4 => some (.addReg x y)
  | 0x5 => some (.subReg x y)
  | 0x6 => some (.shr x y)
  | 0x7 => some (.subnReg x y)
  | 0xE => some (.shl x y)
  | _ => none

/-- Second level of major opcode `0xE`, on `nn`. -/
def decodeOpE (nn : Byte) (x : RegIdx) : Option Instr :=
  if nn = 0x9E#8 then some (.skp x) else if nn = 0xA1#8 then some (.sknp x) else none

/-- Second level of major opcode `0xF`, on `nn`. -/
def decodeOpF (nn : Byte) (x : RegIdx) : Option Instr :=
  if nn = 0x07#8 then some (.ldVxDt x)
  else if nn = 0x0A#8 then some (.ldVxK x)
  else if nn = 0x15#8 then some (.ldDtVx x)
  else if nn = 0x18#8 then some (.ldStVx x)
  else if nn = 0x1E#8 then some (.addI x)
  else if nn = 0x29#8 then some (.ldF x)
  else if nn = 0x33#8 then some (.ldB x)
  else if nn = 0x55#8 then some (.ldMemVx x)
  else if nn = 0x65#8 then some (.ldVxMem x)
  else none

/-- R94: the instruction that a word is, or `none` where it matches no row of the table. -/
def decode (w : Word) : Option Instr :=
  match (opField w).toNat with
  | 0x0 => decodeOp0 w
  | 0x1 => some (.jp (nnnField w))
  | 0x2 => some (.call (nnnField w))
  | 0x3 => some (.seImm (xField w) (nnField w))
  | 0x4 => some (.sneImm (xField w) (nnField w))
  | 0x5 => if nField w = 0 then some (.seReg (xField w) (yField w)) else none
  | 0x6 => some (.ldImm (xField w) (nnField w))
  | 0x7 => some (.addImm (xField w) (nnField w))
  | 0x8 => decodeOp8 (nField w) (xField w) (yField w)
  | 0x9 => if nField w = 0 then some (.sneReg (xField w) (yField w)) else none
  | 0xA => some (.ldI (nnnField w))
  | 0xB => some (.jpV0 (nnnField w))
  | 0xC => some (.rnd (xField w) (nnField w))
  | 0xD => some (.drw (xField w) (yField w) (nField w).toNat)
  | 0xE => decodeOpE (nnField w) (xField w)
  | _ => decodeOpF (nnField w) (xField w)

/-- What the bytes at the program counter decode to, each rejection under its own name. -/
inductive Decoded where
  /-- one of the 34 instructions -/
  | instr (i : Instr)
  /-- two bytes that form no instruction word of R96 -/
  | unknownOpcode (w : Word)
  /-- fewer than the two bytes that every instruction has (R90) -/
  | truncated
  deriving DecidableEq, Repr

/-- The big-endian instruction word: the byte at the lower address is bits 15 to 8 (20_memory.md R62). -/
def wordOfBytes (hi lo : Byte) : Word := hi ++ lo

/-- Decoding is total on any bytes; it looks at the first two (R90: one length, two bytes). -/
def decodeBytes : List Byte → Decoded
  | hi :: lo :: _ =>
    match decode (wordOfBytes hi lo) with
    | some i => .instr i
    | none => .unknownOpcode (wordOfBytes hi lo)
  | _ => .truncated

/-! ### Encoding (R91, R96) -/

/-- A word from its four nibbles, most significant first (R91). -/
def ofNibbles (a b c d : BitVec 4) : Word := a ++ b ++ c ++ d

/-- A register index as a nibble. -/
def regNibble (x : RegIdx) : BitVec 4 := BitVec.ofFin x

/-- Format `NNN` (R91). -/
def formatNNN (op : BitVec 4) (nnn : Imm12) : Word := op ++ nnn

/-- Format `XNN` (R91). -/
def formatXNN (op : BitVec 4) (x : RegIdx) (nn : Byte) : Word := op ++ regNibble x ++ nn

/-- Formats `XY` and `XYN` (R91): the last nibble is the minor opcode, or `n`. -/
def formatXYN (op : BitVec 4) (x y : RegIdx) (n : BitVec 4) : Word :=
  ofNibbles op (regNibble x) (regNibble y) n

/-- Format `X` (R91): the low byte is the minor opcode. -/
def formatX (op : BitVec 4) (x : RegIdx) (minor : Byte) : Word := op ++ regNibble x ++ minor

/-- The word of a well-formed instruction (the patterns of R96). -/
def encode : Instr → Word
  | .cls => 0x00E0
  | .ret => 0x00EE
  | .jp nnn => formatNNN 0x1 nnn
  | .call nnn => formatNNN 0x2 nnn
  | .seImm x nn => formatXNN 0x3 x nn
  | .sneImm x nn => formatXNN 0x4 x nn
  | .seReg x y => formatXYN 0x5 x y 0x0
  | .ldImm x nn => formatXNN 0x6 x nn
  | .addImm x nn => formatXNN 0x7 x nn
  | .ldReg x y => formatXYN 0x8 x y 0x0
  | .orReg x y => formatXYN 0x8 x y 0x1
  | .andReg x y => formatXYN 0x8 x y 0x2
  | .xorReg x y => formatXYN 0x8 x y 0x3
  | .addReg x y => formatXYN 0x8 x y 0x4
  | .subReg x y => formatXYN 0x8 x y 0x5
  | .shr x y => formatXYN 0x8 x y 0x6
  | .subnReg x y => formatXYN 0x8 x y 0x7
  | .shl x y => formatXYN 0x8 x y 0xE
  | .sneReg x y => formatXYN 0x9 x y 0x0
  | .ldI nnn => formatNNN 0xA nnn
  | .jpV0 nnn => formatNNN 0xB nnn
  | .rnd x nn => formatXNN 0xC x nn
  | .drw x y n => formatXYN 0xD x y (BitVec.ofNat 4 n)
  | .skp x => formatX 0xE x 0x9E
  | .sknp x => formatX 0xE x 0xA1
  | .ldVxDt x => formatX 0xF x 0x07
  | .ldVxK x => formatX 0xF x 0x0A
  | .ldDtVx x => formatX 0xF x 0x15
  | .ldStVx x => formatX 0xF x 0x18
  | .addI x => formatX 0xF x 0x1E
  | .ldF x => formatX 0xF x 0x29
  | .ldB x => formatX 0xF x 0x33
  | .ldMemVx x => formatX 0xF x 0x55
  | .ldVxMem x => formatX 0xF x 0x65

/-- The two bytes of a well-formed instruction as memory holds them, lowest address first (20_memory.md R62). -/
def encodeBytes (i : Instr) : List Byte :=
  [(encode i).extractLsb' 8 8, (encode i).extractLsb' 0 8]

/-! ### The opcode table (R96) -/

/-- One row of R96: a word `w` is the instruction iff `w & mask` is `pattern`. -/
structure OpcodeRow where
  mnemonic : String
  mask : Word
  pattern : Word
  deriving DecidableEq, Repr

/-- The rows of major opcodes `0x0` to `0x7`. -/
def opcodeRowsLow : List OpcodeRow :=
  [⟨"CLS", 0xFFFF, 0x00E0⟩, ⟨"RET", 0xFFFF, 0x00EE⟩, ⟨"JP_nnn", 0xF000, 0x1000⟩,
   ⟨"CALL_nnn", 0xF000, 0x2000⟩, ⟨"SE_Vx_nn", 0xF000, 0x3000⟩, ⟨"SNE_Vx_nn", 0xF000, 0x4000⟩,
   ⟨"SE_Vx_Vy", 0xF00F, 0x5000⟩, ⟨"LD_Vx_nn", 0xF000, 0x6000⟩, ⟨"ADD_Vx_nn", 0xF000, 0x7000⟩]

/-- The rows of major opcodes `0x8` to `0xD`. -/
def opcodeRowsMid : List OpcodeRow :=
  [⟨"LD_Vx_Vy", 0xF00F, 0x8000⟩, ⟨"OR_Vx_Vy", 0xF00F, 0x8001⟩, ⟨"AND_Vx_Vy", 0xF00F, 0x8002⟩,
   ⟨"XOR_Vx_Vy", 0xF00F, 0x8003⟩, ⟨"ADD_Vx_Vy", 0xF00F, 0x8004⟩, ⟨"SUB_Vx_Vy", 0xF00F, 0x8005⟩,
   ⟨"SHR_Vx", 0xF00F, 0x8006⟩, ⟨"SUBN_Vx_Vy", 0xF00F, 0x8007⟩, ⟨"SHL_Vx", 0xF00F, 0x800E⟩,
   ⟨"SNE_Vx_Vy", 0xF00F, 0x9000⟩, ⟨"LD_I_nnn", 0xF000, 0xA000⟩, ⟨"JP_V0_nnn", 0xF000, 0xB000⟩,
   ⟨"RND_Vx_nn", 0xF000, 0xC000⟩, ⟨"DRW_Vx_Vy_n", 0xF000, 0xD000⟩]

/-- The rows of major opcodes `0xE` and `0xF`. -/
def opcodeRowsHigh : List OpcodeRow :=
  [⟨"SKP_Vx", 0xF0FF, 0xE09E⟩, ⟨"SKNP_Vx", 0xF0FF, 0xE0A1⟩, ⟨"LD_Vx_DT", 0xF0FF, 0xF007⟩,
   ⟨"LD_Vx_K", 0xF0FF, 0xF00A⟩, ⟨"LD_DT_Vx", 0xF0FF, 0xF015⟩, ⟨"LD_ST_Vx", 0xF0FF, 0xF018⟩,
   ⟨"ADD_I_Vx", 0xF0FF, 0xF01E⟩, ⟨"LD_F_Vx", 0xF0FF, 0xF029⟩, ⟨"LD_B_Vx", 0xF0FF, 0xF033⟩,
   ⟨"LD__I__Vx", 0xF0FF, 0xF055⟩, ⟨"LD_Vx__I", 0xF0FF, 0xF065⟩]

/-- The 34 rows of R96, in order. -/
def opcodeTable : List OpcodeRow := opcodeRowsLow ++ opcodeRowsMid ++ opcodeRowsHigh

/-- Whether a word matches a row (R96). -/
def rowMatches (w : Word) (r : OpcodeRow) : Bool := w &&& r.mask == r.pattern

/-- The row of the table that an instruction is. -/
def rowOf : Instr → OpcodeRow
  | .cls => ⟨"CLS", 0xFFFF, 0x00E0⟩
  | .ret => ⟨"RET", 0xFFFF, 0x00EE⟩
  | .jp _ => ⟨"JP_nnn", 0xF000, 0x1000⟩
  | .call _ => ⟨"CALL_nnn", 0xF000, 0x2000⟩
  | .seImm _ _ => ⟨"SE_Vx_nn", 0xF000, 0x3000⟩
  | .sneImm _ _ => ⟨"SNE_Vx_nn", 0xF000, 0x4000⟩
  | .seReg _ _ => ⟨"SE_Vx_Vy", 0xF00F, 0x5000⟩
  | .ldImm _ _ => ⟨"LD_Vx_nn", 0xF000, 0x6000⟩
  | .addImm _ _ => ⟨"ADD_Vx_nn", 0xF000, 0x7000⟩
  | .ldReg _ _ => ⟨"LD_Vx_Vy", 0xF00F, 0x8000⟩
  | .orReg _ _ => ⟨"OR_Vx_Vy", 0xF00F, 0x8001⟩
  | .andReg _ _ => ⟨"AND_Vx_Vy", 0xF00F, 0x8002⟩
  | .xorReg _ _ => ⟨"XOR_Vx_Vy", 0xF00F, 0x8003⟩
  | .addReg _ _ => ⟨"ADD_Vx_Vy", 0xF00F, 0x8004⟩
  | .subReg _ _ => ⟨"SUB_Vx_Vy", 0xF00F, 0x8005⟩
  | .shr _ _ => ⟨"SHR_Vx", 0xF00F, 0x8006⟩
  | .subnReg _ _ => ⟨"SUBN_Vx_Vy", 0xF00F, 0x8007⟩
  | .shl _ _ => ⟨"SHL_Vx", 0xF00F, 0x800E⟩
  | .sneReg _ _ => ⟨"SNE_Vx_Vy", 0xF00F, 0x9000⟩
  | .ldI _ => ⟨"LD_I_nnn", 0xF000, 0xA000⟩
  | .jpV0 _ => ⟨"JP_V0_nnn", 0xF000, 0xB000⟩
  | .rnd _ _ => ⟨"RND_Vx_nn", 0xF000, 0xC000⟩
  | .drw _ _ _ => ⟨"DRW_Vx_Vy_n", 0xF000, 0xD000⟩
  | .skp _ => ⟨"SKP_Vx", 0xF0FF, 0xE09E⟩
  | .sknp _ => ⟨"SKNP_Vx", 0xF0FF, 0xE0A1⟩
  | .ldVxDt _ => ⟨"LD_Vx_DT", 0xF0FF, 0xF007⟩
  | .ldVxK _ => ⟨"LD_Vx_K", 0xF0FF, 0xF00A⟩
  | .ldDtVx _ => ⟨"LD_DT_Vx", 0xF0FF, 0xF015⟩
  | .ldStVx _ => ⟨"LD_ST_Vx", 0xF0FF, 0xF018⟩
  | .addI _ => ⟨"ADD_I_Vx", 0xF0FF, 0xF01E⟩
  | .ldF _ => ⟨"LD_F_Vx", 0xF0FF, 0xF029⟩
  | .ldB _ => ⟨"LD_B_Vx", 0xF0FF, 0xF033⟩
  | .ldMemVx _ => ⟨"LD__I__Vx", 0xF0FF, 0xF055⟩
  | .ldVxMem _ => ⟨"LD_Vx__I", 0xF0FF, 0xF065⟩

/-! ### The host's question -/

/-- The instruction that the decoder reads from a table word: bits 15 to 8 are the first byte (R62); the bits above
`nbits` are zero. -/
def decodeTableWord (nbits w : Nat) : Option Instr :=
  let word : Word := BitVec.ofNat 16 (w % 2 ^ nbits)
  match decodeBytes [word.extractLsb' 8 8, word.extractLsb' 0 8] with
  | .instr i => some i
  | .unknownOpcode _ | .truncated => none

end Sys2Proof
end

