-- ==== Sys2Proof/Config.lean ====
section
/-! DEFINITION. What is fixed for the machine (00_scope.md R5), and the one free value of the model, the random byte.
The two parameters whose values the spec decides or supplies itself, FONT_BASE and FONT, stand as definitions in
Machine/Operands.lean and Machine/HostEvents.lean, where a later repair may mend them. -/

namespace Sys2Proof.Config

/-- `MEM_SIZE`: the bytes of main memory, addresses `0x000` to `0xFFF` (R5, 20_memory.md R60). -/
def memSize : Nat := 4096

/-- `PROG_BASE`: where a ROM is loaded, and the reset value of `pc` (R5). -/
def progBase : Word := 0x0200

/-- `ROM_MAX`: the longest ROM that `LOAD_ROM` accepts (R5, 45_host_operations.md R225). -/
def romMax : Nat := 3584

/-- The random source (41_alu.md R153, decision D20; log entry 2): draw number `k` of the machine is `randomByte k`.
It has no body that a proof can see: a claim holds for every sequence of draws. -/
opaque randomByte : Nat → Byte

end Sys2Proof.Config
end

