-- ==== Sys2Proof/Machine/State.lean ====
section
/-! DEFINITION. The state of the core (10_state.md R20), its reset value (R270), and the reasons a step can stop. -/

namespace Sys2Proof.Machine

/-- Main memory as the list of its non-zero bytes by address (20_memory.md R60): addresses strictly rising, and an
unlisted address holds 0, the reset content of every byte (R21). `Memory.wf` in Ops.lean states the form. -/
abbrev Memory := List Host.Cell

/-- The six input events of the core (45_host_operations.md R220). -/
inductive Event where
  /-- `RESET` (R221) -/
  | reset
  /-- `LOAD_FONT` (R222) -/
  | loadFont
  /-- `LOAD_ROM(bytes)` (R225) -/
  | loadRom (bytes : List Byte)
  /-- `CYCLE` (R223) -/
  | cycle
  /-- `TICK` (R224) -/
  | tick
  /-- `SET_KEY(k, p)` (R227) -/
  | setKey (k : KeyIdx) (p : Bool)
  deriving DecidableEq, Repr

/-- The state of the core, R20 field by field, and two fields of the model's own (`draws`, `pending`). -/
structure State where
  /-- `MEM[0..4095]` (R21) -/
  mem : Memory
  /-- `V[0..15]`, with the flag register `VF = V[15]` (R22, R23) -/
  v : Vector Byte 16
  /-- `I` (R25) -/
  i : Word
  /-- `pc` (R24) -/
  pc : Word
  /-- `STACK[0..15]` (R26) -/
  stack : Vector Word 16
  /-- `sp`, the number of stack entries in use, 0 to 16 (R26) -/
  sp : Fin 17
  /-- `DT`, the delay timer (R27) -/
  dt : Byte
  /-- `ST`, the sound timer (R27) -/
  st : Byte
  /-- `KEY[0..15]`, true is pressed (R28) -/
  key : Vector Bool 16
  /-- `WAIT`: `none` is `Running`, `some x` is `WaitingForKey(x)` (R29) -/
  wait : Option RegIdx
  /-- `KPREV[0..15]`, the keypad as last sampled by the key-wait logic (R30) -/
  kprev : Vector Bool 16
  /-- `FB[r][c]`: 32 rows of 64 pixels, true is set (R31) -/
  fb : Vector (Vector Bool 64) 32
  /-- MODEL: how many random bytes have been drawn (41_alu.md R153; log entry 2). -/
  draws : Nat
  /-- MODEL: the host's coming events, the next one first; when it is empty the next event is `CYCLE`
  (00_scope.md R8; log entry 3). -/
  pending : List Event
  deriving DecidableEq, Repr

/-- Why a step stops: the closed list of errors (60_exceptions.md R240). Every one is the spec's own error and leaves
the core's state as it was (R246), so stopping there is safe: no behaviour of the machine is left out but the host's
next event, which `Machine/Cycle.lean` gives with `afterEvent`. -/
inductive Fault where
  /-- Raised by `CYCLE` where the fetched word is no instruction (R241). Safe. -/
  | unknownOpcode (value : Word)
  /-- Raised by `CALL` with 16 entries in use (R242). Safe. -/
  | stackOverflow
  /-- Raised by `RET` with no entry in use (R243). Safe. -/
  | stackUnderflow
  /-- Raised by the fetch, `ADD I,Vx`, `DRW`, `LD B,Vx`, `LD [I],Vx` and `LD Vx,[I]` (R244). Safe. -/
  | outOfBounds (address : Word)
  /-- Raised by the event `LOAD_ROM` with more than 3584 bytes, never by an instruction (R245). Safe. -/
  | romTooLarge
  deriving DecidableEq, Repr

/-- Why the model has no meaning for an instruction. -/
inductive Refusal where
  /-- Raised by `exec` for an instruction without a meaning; no arm of this model does so. Safe. -/
  | notModelled (mnemonic : String)
  deriving DecidableEq, Repr

/-- What an instruction or an event answers. -/
abbrev Answer := Host.Outcome State Fault Refusal

/-- The state right after `RESET`, which is also the power-on state (70_reset_and_hazards.md R270, R271): nothing in
memory (no font, no program), the pc at `0x0200`, everything else zero. The model's own `draws` and `pending` start at
0 and at no coming event (log entries 2 and 3). -/
def State.reset : State where
  mem := []
  v := Vector.replicate 16 0
  i := 0
  pc := Config.progBase
  stack := Vector.replicate 16 0
  sp := 0
  dt := 0
  st := 0
  key := Vector.replicate 16 false
  wait := none
  kprev := Vector.replicate 16 false
  fb := Vector.replicate 32 (Vector.replicate 64 false)
  draws := 0
  pending := []

end Sys2Proof.Machine
end

