-- ==== Sys2Proof/Machine/Ops.lean ====
section
/-! DEFINITION. The shared operations over memory, registers, the program counter, the call stack and the framebuffer,
and raising an error. -/

namespace Sys2Proof.Machine

/-! ### Raising an error -/

/-- `raise <Error>(info)` (00_scope.md R7, 60_exceptions.md R246): the one way an instruction or an event fails. There is
no handler, vector or saved register: the step stops, nothing it has written is kept, and the host is given the error.
There is no return from an error either (R249): nothing was saved. -/
def raise (f : Fault) : Answer := .fault f

/-! ### Memory (20_memory.md R60, R68) -/

/-- The byte at an address; an unlisted address holds 0 (R21). -/
def memGet : Memory → Nat → Byte
  | [], _ => 0
  | (a, b) :: m, x => if x = a then b else memGet m x

/-- The listing without an address. -/
def memErase (m : Memory) (x : Nat) : Memory := m.filter fun c => c.1 != x

/-- The listing with an entry put before the first one of a higher address. -/
def memInsert : Memory → Nat → Byte → Memory
  | [], x, b => [(x, b)]
  | (a, c) :: m, x, b => if x < a then (x, b) :: (a, c) :: m else (a, c) :: memInsert m x b

/-- Memory with the byte `b` at address `x`, in canonical form again: a zero byte is not listed. -/
def memSet (m : Memory) (x : Nat) (b : Byte) : Memory :=
  if b = 0 then memErase m x else memInsert (memErase m x) x b

/-- The canonical form from an address on: strictly rising addresses below 4096, no listed byte 0. -/
def Memory.wfFrom : Nat → Memory → Bool
  | _, [] => true
  | lo, (a, b) :: m => decide (lo ≤ a) && decide (a < Config.memSize) && b != 0 && Memory.wfFrom (a + 1) m

/-- The canonical form of a memory. -/
def Memory.wf (m : Memory) : Bool := Memory.wfFrom 0 m

/-- Successive bytes written at ascending addresses (R67, R69). -/
def storeBytes : Memory → Nat → List Byte → Memory
  | m, _, [] => m
  | m, a, b :: bs => storeBytes (memSet m a b) (a + 1) bs

/-- The bytes at `a .. a+n-1`, in ascending order (R67). -/
def loadBytes (m : Memory) (a n : Nat) : List Byte := (List.range n).map fun k => memGet m (a + k)

/-! ### Registers (10_state.md R22) -/

/-- `V[x]`. -/
def State.reg (s : State) (x : RegIdx) : Byte := s.v[x.val]

/-- `V[x] <- b`. -/
def State.setReg (s : State) (x : RegIdx) (b : Byte) : State := { s with v := s.v.set x.val b }

/-! ### The program counter (10_state.md R24) -/

/-- The advance of the fetch, `pc <- pc + 2` (20_memory.md R66). -/
def State.advance (s : State) : State := { s with pc := s.pc + 2 }

/-- `skip` where the condition holds: a further `pc <- u16(pc + 2)` (40_flow.md R121). -/
def State.skipIf (s : State) (c : Bool) : State := if c then { s with pc := s.pc + 2 } else s

/-- The instruction's bytes at the program counter: none where `pc >= 4095`, else `MEM[pc], MEM[pc+1]`
(20_memory.md R65). -/
def fetchBytes (s : State) : List Byte :=
  if Config.memSize - 1 ≤ s.pc.toNat then [] else [memGet s.mem s.pc.toNat, memGet s.mem (s.pc.toNat + 1)]

/-! ### The call stack (10_state.md R26) -/

/-- Push a return address; `StackOverflow` where 16 entries are in use (R242). -/
def pushThen (s : State) (value : Word) (next : State → State) : Answer :=
  if h : s.sp.val < 16 then
    .next (next { s with stack := s.stack.set s.sp.val value, sp := ⟨s.sp.val + 1, by omega⟩ })
  else raise .stackOverflow

/-- Pop a return address and use it; `StackUnderflow` where no entry is in use (R243). -/
def popThen (s : State) (next : Word → State → State) : Answer :=
  if h : 0 < s.sp.val then
    .next (next (s.stack[s.sp.val - 1]'(by omega)) { s with sp := ⟨s.sp.val - 1, by omega⟩ })
  else raise .stackUnderflow

/-! ### The framebuffer (10_state.md R31) -/

/-- The pixel grid. -/
abbrev Grid := Vector (Vector Bool 64) 32

/-- `FB[r][c]`. -/
def pixel (g : Grid) (r : Fin 32) (c : Fin 64) : Bool := g[r.val][c.val]

/-- `FB[r][c] <- b`. -/
def setPixel (g : Grid) (r : Fin 32) (c : Fin 64) (b : Bool) : Grid :=
  g.set r.val (g[r.val].set c.val b)

/-- The grid with every pixel unset (43_display.md R191). -/
def clearGrid : Grid := Vector.replicate 32 (Vector.replicate 64 false)

/-- A row number reduced to the grid (R192, toroidal wrap). -/
def wrapRow (r : Nat) : Fin 32 := ⟨r % 32, Nat.mod_lt _ (by decide)⟩

/-- A column number reduced to the grid (R192, toroidal wrap). -/
def wrapCol (c : Nat) : Fin 64 := ⟨c % 64, Nat.mod_lt _ (by decide)⟩

/-- One sprite bit XORed into a pixel, with the collision so far: it is raised where the pixel goes from set to unset
(R192). -/
def plotBit (p : Grid × Bool) (r : Fin 32) (c : Fin 64) (bit : Bool) : Grid × Bool :=
  if bit then (setPixel p.1 r c (!pixel p.1 r c), p.2 || pixel p.1 r c) else p

/-- One sprite row: bit `7 - b` is drawn `b` columns right of the start column (43_display.md R190). -/
def plotRow (p : Grid × Bool) (x0 r : Nat) (byte : Byte) : Grid × Bool :=
  (List.range 8).foldl (fun q b => plotBit q (wrapRow r) (wrapCol (x0 + b)) (byte.getLsbD (7 - b))) p

/-- The rows of a sprite, the first at row `r`, the others below it (R190, R192). -/
def plotSprite (p : Grid × Bool) (x0 r : Nat) : List Byte → Grid × Bool
  | [] => p
  | byte :: rest => plotSprite (plotRow p x0 r byte) x0 (r + 1) rest

end Sys2Proof.Machine
end

