-- ==== Sys2Proof/Machine/Flags.lean ====
section
/-! DEFINITION. The results and flags of the arithmetic and shift instructions, and the order in which result and flag
are written (10_state.md R23, 41_alu.md R140, R152). -/

namespace Sys2Proof.Machine

/-- A flag as the byte that `VF` receives, exactly `0x00` or `0x01` (R23). -/
def flagByte (f : Bool) : Byte := if f then 1 else 0

/-- The result first, the flag second: with `x = 0xF` the flag wins (R140). -/
def State.setRegFlag (s : State) (x : RegIdx) (result : Byte) (flag : Bool) : State :=
  (s.setReg x result).setReg vF (flagByte flag)

/-- `u8(a + b)`. -/
def addResult (a b : Byte) : Byte := BitVec.ofNat 8 (a.toNat + b.toNat)

/-- Carry out of `a + b` (R147). -/
def carryOut (a b : Byte) : Bool := decide (255 < a.toNat + b.toNat)

/-- `u8(a - b)`: `a - b + 256` where `a < b` (R148). -/
def subResult (a b : Byte) : Byte := if a.toNat < b.toNat then BitVec.ofNat 8 (a.toNat + 256 - b.toNat) else BitVec.ofNat 8 (a.toNat - b.toNat)

/-- NOT borrow of `a - b` (R148, R150). -/
def noBorrow (a b : Byte) : Bool := decide (b.toNat ≤ a.toNat)

/-- `a >> 1`, bit 7 becoming 0 (R149). -/
def shrResult (a : Byte) : Byte := a >>> 1

/-- The bit shifted out to the right (R149). -/
def shrFlag (a : Byte) : Bool := a.getLsbD 0

/-- `u8(a << 1)`, bit 0 becoming 0 (R151). -/
def shlResult (a : Byte) : Byte := a <<< 1

/-- The bit shifted out to the left (R151). -/
def shlFlag (a : Byte) : Bool := a.getLsbD 7

end Sys2Proof.Machine
end

