-- ==== Sys2Proof/Machine/Operands.lean ====
section
/-! DEFINITION. The operand forms (30_encoding.md R93): register, immediate, memory at `I` plus an offset; and the
low-nibble selections of keys and glyphs. -/

namespace Sys2Proof.Machine

/-- `FONT_BASE`: the address of glyph 0 (00_scope.md R5, decision D1; log entry 5). -/
def fontBase : Nat := 0x050

/-- The bytes of one glyph (00_scope.md R5). -/
def glyphBytes : Nat := 5

/-- `V[x][3:0]`, the low nibble of a register, which selects a key or a glyph (R200, R173). -/
def State.lowNibble (s : State) (x : RegIdx) : Fin 16 := (s.reg x).setWidth 4 |>.toFin

/-- The level of the key that a register selects (44_keypad_timers.md R200 to R202). -/
def State.keyOf (s : State) (x : RegIdx) : Bool := s.key[(s.lowNibble x).val]

/-- `FONT_BASE + 5 * d`, the address of glyph `d` (42_index_memory.md R173). -/
def glyphAddress (d : Fin 16) : Word := BitVec.ofNat 16 (fontBase + glyphBytes * d.val)

/-- `zext_16(nnn)` (R93). -/
def addressOf (nnn : Imm12) : Word := nnn.setWidth 16

/-- Whether an access of `count` bytes at a base leaves the 4096-byte space (20_memory.md R64); no bytes, no access. -/
def leavesMemory (base count : Nat) : Bool := decide (0 < count) && decide (Config.memSize < base + count)

/-- An instruction whose one check is the bounds of its access of `count` bytes at `I` (R64, R170): it raises before it
reads or writes anything, with the address 4096 (R244). -/
def withAccess (s : State) (count : Nat) (t : State) : Answer :=
  if leavesMemory s.i.toNat count then raise (.outOfBounds 0x1000) else .next t

/-- The `count` bytes at `I` (R170). -/
def bytesAtI (s : State) (count : Nat) : List Byte := loadBytes s.mem s.i.toNat count

/-- The state with successive bytes stored at `I` (R170). -/
def State.storeAtI (s : State) (bs : List Byte) : State := { s with mem := storeBytes s.mem s.i.toNat bs }

/-- The registers `V0 .. Vx` in order, the block of `LD [I],Vx` (R175). -/
def State.regBlock (s : State) (x : RegIdx) : List Byte := s.v.toList.take (x.val + 1)

/-- The state with `V0 .. Vx` loaded from the bytes at `I .. I+x` (R176). -/
def State.loadBlock (s : State) (x : RegIdx) : State :=
  { s with v := Vector.ofFn fun k => if k.val ≤ x.val then memGet s.mem (s.i.toNat + k.val) else s.v[k.val] }

/-- The three decimal digits of a byte, hundreds first (R174). -/
def bcdDigits (b : Byte) : List Byte :=
  [BitVec.ofNat 8 (b.toNat / 100), BitVec.ofNat 8 (b.toNat / 10 % 10), BitVec.ofNat 8 (b.toNat % 10)]

/-- The next random byte, and the state with that draw consumed (41_alu.md R153; log entry 2). -/
def drawByte (s : State) : Byte × State := (Config.randomByte s.draws, { s with draws := s.draws + 1 })

end Sys2Proof.Machine
end

