-- ==== Sys2Proof/Machine/Alu.lean ====
section
/-! DEFINITION. Register load, arithmetic, logic, shift and random instructions (41_alu.md). -/

namespace Sys2Proof.Machine

/-- `LD Vx,nn` (R141). -/
def execLdImm (x : RegIdx) (nn : Byte) (s : State) : Answer := .next (s.setReg x nn)

/-- `ADD Vx,nn` (R142): no flag is written. -/
def execAddImm (x : RegIdx) (nn : Byte) (s : State) : Answer := .next (s.setReg x (addResult (s.reg x) nn))

/-- `LD Vx,Vy` (R143). -/
def execLdReg (x y : RegIdx) (s : State) : Answer := .next (s.setReg x (s.reg y))

/-- `OR Vx,Vy` (R144): no flag is written. -/
def execOrReg (x y : RegIdx) (s : State) : Answer := .next (s.setReg x (s.reg x ||| s.reg y))

/-- `AND Vx,Vy` (R145): no flag is written. -/
def execAndReg (x y : RegIdx) (s : State) : Answer := .next (s.setReg x (s.reg x &&& s.reg y))

/-- `XOR Vx,Vy` (R146): no flag is written. -/
def execXorReg (x y : RegIdx) (s : State) : Answer := .next (s.setReg x (s.reg x ^^^ s.reg y))

/-- `ADD Vx,Vy` (R147). -/
def execAddReg (x y : RegIdx) (s : State) : Answer :=
  .next (s.setRegFlag x (addResult (s.reg x) (s.reg y)) (carryOut (s.reg x) (s.reg y)))

/-- `SUB Vx,Vy` (R148): `Vx` minus `Vy`. -/
def execSubReg (x y : RegIdx) (s : State) : Answer :=
  .next (s.setRegFlag x (subResult (s.reg x) (s.reg y)) (noBorrow (s.reg x) (s.reg y)))

/-- `SHR Vx` (R149): `Vx` in place; `y` is ignored. -/
def execShr (x _y : RegIdx) (s : State) : Answer :=
  .next (s.setRegFlag x (shrResult (s.reg x)) (shrFlag (s.reg x)))

/-- `SUBN Vx,Vy` (R150): `Vy` minus `Vx`, to `Vx`. -/
def execSubnReg (x y : RegIdx) (s : State) : Answer :=
  .next (s.setRegFlag x (subResult (s.reg y) (s.reg x)) (noBorrow (s.reg y) (s.reg x)))

/-- `SHL Vx` (R151): `Vx` in place; `y` is ignored. -/
def execShl (x _y : RegIdx) (s : State) : Answer :=
  .next (s.setRegFlag x (shlResult (s.reg x)) (shlFlag (s.reg x)))

/-- `RND Vx,nn` (R153): one random byte is drawn and masked. -/
def execRnd (x : RegIdx) (nn : Byte) (s : State) : Answer :=
  .next ((drawByte s).2.setReg x ((drawByte s).1 &&& nn))

end Sys2Proof.Machine
end

