-- ==== Sys2Proof/Machine/Display.lean ====
section
/-! DEFINITION. Framebuffer instructions (43_display.md). -/

namespace Sys2Proof.Machine

/-- `CLS` (R191). -/
def execCls (s : State) : Answer := .next { s with fb := clearGrid }

/-- The grid after the sprite of `DRW Vx,Vy,n`, and the collision (R192). -/
def drawn (x y : RegIdx) (n : Nat) (s : State) : Grid × Bool :=
  plotSprite (s.fb, false) (s.reg x).toNat (s.reg y).toNat (bytesAtI s n)

/-- `DRW Vx,Vy,n` (R192): the coordinates are read first, `VF` is written last. -/
def execDrw (x y : RegIdx) (n : Nat) (s : State) : Answer :=
  withAccess s n ({ s with fb := (drawn x y n s).1 }.setReg vF (flagByte (drawn x y n s).2))

end Sys2Proof.Machine
end

