-- ==== Sys2Proof/Machine/Flow.lean ====
section
/-! DEFINITION. Control transfer (40_flow.md). On entry `pc` is the advanced value, the instruction's address plus 2
(R120). -/

namespace Sys2Proof.Machine

/-- `RET` (R122). -/
def execRet (s : State) : Answer := popThen s fun ret t => { t with pc := ret }

/-- `JP nnn` (R123). -/
def execJp (nnn : Imm12) (s : State) : Answer := .next { s with pc := addressOf nnn }

/-- `CALL nnn` (R124): the advanced pc is pushed. -/
def execCall (nnn : Imm12) (s : State) : Answer := pushThen s s.pc fun t => { t with pc := addressOf nnn }

/-- `SE Vx,nn` (R125). -/
def execSeImm (x : RegIdx) (nn : Byte) (s : State) : Answer := .next (s.skipIf (s.reg x == nn))

/-- `SNE Vx,nn` (R126). -/
def execSneImm (x : RegIdx) (nn : Byte) (s : State) : Answer := .next (s.skipIf (s.reg x != nn))

/-- `SE Vx,Vy` (R127). -/
def execSeReg (x y : RegIdx) (s : State) : Answer := .next (s.skipIf (s.reg x == s.reg y))

/-- `SNE Vx,Vy` (R128). -/
def execSneReg (x y : RegIdx) (s : State) : Answer := .next (s.skipIf (s.reg x != s.reg y))

/-- `JP V0,nnn` (R129): a 16-bit sum, not reduced to 12 bits. -/
def execJpV0 (nnn : Imm12) (s : State) : Answer :=
  .next { s with pc := addressOf nnn + (s.reg 0).setWidth 16 }

end Sys2Proof.Machine
end

