-- ==== Sys2Proof/Machine/IndexMemory.lean ====
section
/-! DEFINITION. Index register and memory instructions (42_index_memory.md). None changes `I` as a side effect of an
access (R170). -/

namespace Sys2Proof.Machine

/-- `LD I,nnn` (R171). -/
def execLdI (nnn : Imm12) (s : State) : Answer := .next { s with i := addressOf nnn }

/-- `ADD I,Vx` (R172): a sum of 4096 or more is out of bounds and leaves `I` alone; `VF` is not written. -/
def execAddI (x : RegIdx) (s : State) : Answer :=
  if Config.memSize ≤ s.i.toNat + (s.reg x).toNat then raise (.outOfBounds (s.i + (s.reg x).setWidth 16))
  else .next { s with i := s.i + (s.reg x).setWidth 16 }

/-- `LD F,Vx` (R173): the address of the glyph that the low nibble selects. -/
def execLdF (x : RegIdx) (s : State) : Answer := .next { s with i := glyphAddress (s.lowNibble x) }

/-- `LD B,Vx` (R174): three decimal digits at `I`, `I+1`, `I+2`. -/
def execLdB (x : RegIdx) (s : State) : Answer := withAccess s 3 (s.storeAtI (bcdDigits (s.reg x)))

/-- `LD [I],Vx` (R175): `V0 .. Vx` to `I .. I+x`. -/
def execLdMemVx (x : RegIdx) (s : State) : Answer := withAccess s (x.val + 1) (s.storeAtI (s.regBlock x))

/-- `LD Vx,[I]` (R176): `V0 .. Vx` from `I .. I+x`. -/
def execLdVxMem (x : RegIdx) (s : State) : Answer := withAccess s (x.val + 1) (s.loadBlock x)

end Sys2Proof.Machine
end

