-- ==== Sys2Proof/Machine/KeypadTimers.lean ====
section
/-! DEFINITION. Keypad and timer instructions, and the poll of a `CYCLE` in key-wait (44_keypad_timers.md). -/

namespace Sys2Proof.Machine

/-- `SKP Vx` (R201). -/
def execSkp (x : RegIdx) (s : State) : Answer := .next (s.skipIf (s.keyOf x))

/-- `SKNP Vx` (R202). -/
def execSknp (x : RegIdx) (s : State) : Answer := .next (s.skipIf (!s.keyOf x))

/-- `LD Vx,K` (R203): the wait begins, with the keys that are down as its first sample; `pc` stays advanced. -/
def execLdVxK (x : RegIdx) (s : State) : Answer := .next { s with wait := some x, kprev := s.key }

/-- `LD Vx,DT` (R205). -/
def execLdVxDt (x : RegIdx) (s : State) : Answer := .next (s.setReg x s.dt)

/-- `LD DT,Vx` (R206). -/
def execLdDtVx (x : RegIdx) (s : State) : Answer := .next { s with dt := s.reg x }

/-- `LD ST,Vx` (R207). -/
def execLdStVx (x : RegIdx) (s : State) : Answer := .next { s with st := s.reg x }

/-- Whether a key is in `T`: down now and up at the last sample (R204). -/
def State.wentDown (s : State) (k : KeyIdx) : Bool := s.key[k.val] && !s.kprev[k.val]

/-- `min(T)`, or `none` where `T` is empty (R204). -/
def State.firstDown (s : State) : Option KeyIdx := (List.finRange 16).find? s.wentDown

/-- A `CYCLE` while `WAIT = some x` (R204): no fetch; the keypad is sampled again, or the lowest key that went down ends
the wait. -/
def pollKeys (x : RegIdx) (s : State) : State :=
  match s.firstDown with
  | none => { s with kprev := s.key }
  | some k => { s.setReg x (BitVec.ofNat 8 k.val) with wait := none }

end Sys2Proof.Machine
end

