-- ==== Sys2Proof/Machine/HostEvents.lean ====
section
/-! DEFINITION. The host's events other than `CYCLE`, and the outputs `FB` and `SOUND` (45_host_operations.md). -/

namespace Sys2Proof.Machine

/-- Glyphs 0 to 7 of the default font (R226; log entry 6). -/
def fontLow : List Byte :=
  [0xF0, 0x90, 0x90, 0x90, 0xF0, 0x20, 0x60, 0x20, 0x20, 0x70,
   0xF0, 0x10, 0xF0, 0x80, 0xF0, 0xF0, 0x10, 0xF0, 0x10, 0xF0,
   0x90, 0x90, 0xF0, 0x10, 0x10, 0xF0, 0x80, 0xF0, 0x10, 0xF0,
   0xF0, 0x80, 0xF0, 0x90, 0xF0, 0xF0, 0x10, 0x20, 0x40, 0x40]

/-- Glyphs 8 to F of the default font (R226; log entry 6). -/
def fontHigh : List Byte :=
  [0xF0, 0x90, 0xF0, 0x90, 0xF0, 0xF0, 0x90, 0xF0, 0x10, 0xF0,
   0xF0, 0x90, 0xF0, 0x90, 0x90, 0xE0, 0x90, 0xE0, 0x90, 0xE0,
   0xF0, 0x80, 0x80, 0x80, 0xF0, 0xE0, 0x90, 0x90, 0x90, 0xE0,
   0xF0, 0x80, 0xF0, 0x80, 0xF0, 0xF0, 0x80, 0xF0, 0x80, 0x80]

/-- The `FONT` table, 80 bytes: 16 glyphs of 5 bytes (R226). -/
def font : List Byte := fontLow ++ fontHigh

/-- `RESET` (R221): everything R20 names to its reset value. The random source and the host's coming events are not the
core's (R20), so `draws` and `pending` stay. -/
def hostReset (s : State) : State := { State.reset with draws := s.draws, pending := s.pending }

/-- `LOAD_FONT` (R222) for any font table: the bytes go to `FONT_BASE` and up. -/
def loadFontTable (table : List Byte) (s : State) : State := { s with mem := storeBytes s.mem fontBase table }

/-- `LOAD_FONT` (R222) with the table of R226. -/
def hostLoadFont (s : State) : State := loadFontTable font s

/-- `LOAD_ROM(bytes)` (R225): all of the bytes from `0x200` on, or `RomTooLarge` and nothing. -/
def hostLoadRom (bytes : List Byte) (s : State) : Answer :=
  if Config.romMax < bytes.length then raise .romTooLarge
  else .next { s with mem := storeBytes s.mem Config.progBase.toNat bytes }

/-- A timer one tick later: never below 0 (R224). -/
def countDown (t : Byte) : Byte := if 0 < t.toNat then t - 1 else t

/-- `TICK` (R224): each timer on its own. -/
def hostTick (s : State) : State := { s with dt := countDown s.dt, st := countDown s.st }

/-- `SET_KEY(k, p)` (R227): one key level and nothing else. -/
def hostSetKey (k : KeyIdx) (p : Bool) (s : State) : State := { s with key := s.key.set k.val p }

/-- The `FB` output (R228): width, height and the pixel bits, pixel `(r, c)` at `r * 64 + c`. -/
def fbOutput (s : State) : Nat × Nat × List Bool := (64, 32, s.fb.toList.flatMap Vector.toList)

/-- The `SOUND` output (R229): 1 exactly while `ST > 0`. -/
def soundOutput (s : State) : Bool := decide (0 < s.st.toNat)

end Sys2Proof.Machine
end

