-- ==== Sys2Proof/Machine/Cycle.lean ====
section
/-! DEFINITION. The `CYCLE` event, the six events as one transition, and what the host sees after an event
(45_host_operations.md R223, R230; 60_exceptions.md R246). -/

namespace Sys2Proof.Machine

/-- Fetch, advance, decode, execute (R223); the checks come in the order of R248: fetch bounds, decode, the
instruction's own check. -/
def runInstruction (s : State) : Answer :=
  match decodeBytes (fetchBytes s) with
  | .truncated => raise (.outOfBounds s.pc)
  | .unknownOpcode w => raise (.unknownOpcode w)
  | .instr i => exec i s.advance

/-- `CYCLE` (R223): the key-wait poll while waiting, else one instruction. -/
def cycle (s : State) : Answer :=
  match s.wait with
  | some x => .next (pollKeys x s)
  | none => runInstruction s

/-- One transition per event (00_scope.md R8). -/
def applyEvent (e : Event) (s : State) : Answer :=
  match e with
  | .reset => .next (hostReset s)
  | .loadFont => .next (hostLoadFont s)
  | .loadRom bytes => hostLoadRom bytes s
  | .cycle => cycle s
  | .tick => .next (hostTick s)
  | .setKey k p => .next (hostSetKey k p s)

/-- The event that the next step is: the first of the host's coming events, or `CYCLE` where none is listed
(log entry 3). -/
def nextEvent (s : State) : Event :=
  match s.pending with
  | [] => .cycle
  | e :: _ => e

/-- The state with that event taken from the host's coming events. -/
def takeEvent (s : State) : State := { s with pending := s.pending.tail }

/-- The `RESULT` output (R230). -/
inductive Result where
  /-- the event succeeded -/
  | success
  /-- the event failed with an error of R240 -/
  | error (f : Fault)
  deriving DecidableEq, Repr

/-- What an answer leaves, from the state before it: an error leaves that state bit for bit and is presented in `RESULT`
(R246). DESIGN CHOICE (log entry 26): R230 gives a result after `CYCLE` and `LOAD_ROM` only, and the model reports
`success` after the other four events too, which never fail. A refusal would be no behaviour of the machine; none
arises. -/
def deliver (before : State) : Answer → State × Result
  | .next t => (t, .success)
  | .fault f => (before, .error f)
  | .refused _ => (before, .success)

/-- The state and the `RESULT` after an event, errors included: the host may go on (R249). -/
def afterEvent (e : Event) (s : State) : State × Result := deliver s (applyEvent e s)

/-- The state and the results after a sequence of events, through any errors on the way (00_scope.md R8). -/
def afterEvents : List Event → State → State × List Result
  | [], s => (s, [])
  | e :: es, s =>
    ((afterEvents es (afterEvent e s).1).1, (afterEvent e s).2 :: (afterEvents es (afterEvent e s).1).2)

end Sys2Proof.Machine
end

