-- ==== Sys2Proof/Machine/Step.lean ====
section
/-! DEFINITION. One step of the machine: the host's next event (00_scope.md R8; log entry 3). -/

namespace Sys2Proof.Machine

/-- The next event applied to the state from which it was taken. With no coming event listed this is one `CYCLE`. -/
def step (s : State) : Host.Outcome State Fault Refusal := applyEvent (nextEvent s) (takeEvent s)

/-- The state whose next step fetches and runs the table word `w`: the engine is `Running`, the next event is `CYCLE`, the
word's bytes stand at `pc`, high byte first (20_memory.md R62), and `pc` is moved to `0x200` only where no fetch can
succeed (R65). It stands for a load from outside the machine (log entry 4). -/
def State.withFetchWord (s : State) (nbits w : Nat) : State :=
  let word : Word := BitVec.ofNat 16 (w % 2 ^ nbits)
  let base : Word := if Config.memSize - 1 ≤ s.pc.toNat then Config.progBase else s.pc
  { s with
    pc := base
    wait := none
    pending := []
    mem := storeBytes s.mem base.toNat [word.extractLsb' 8 8, word.extractLsb' 0 8] }

end Sys2Proof.Machine
end

