-- ==== Sys2Proof/Safety.lean ====
section
/-! DEFINITION. The terms in which claims about the machine are written: which part of the state changes (frames), which
instruction may write which part, the invariant of every reachable state, which error an instruction has, which pixels a
sprite covers, and which states no program or host can tell apart. -/

namespace Sys2Proof.Machine

/-! ### Frames -/

/-- The parts of the state (10_state.md R20), the last two the model's own. -/
inductive Part where
  | mem | v | i | pc | stack | sp | dt | st | key | wait | kprev | fb | draws | pending
  deriving DecidableEq, Repr

/-- Two states agree in a part; for memory, every byte reads the same. -/
def Part.Same : Part → State → State → Prop
  | .mem, s, t => ∀ a, memGet t.mem a = memGet s.mem a
  | .v, s, t => t.v = s.v
  | .i, s, t => t.i = s.i
  | .pc, s, t => t.pc = s.pc
  | .stack, s, t => t.stack = s.stack
  | .sp, s, t => t.sp = s.sp
  | .dt, s, t => t.dt = s.dt
  | .st, s, t => t.st = s.st
  | .key, s, t => t.key = s.key
  | .wait, s, t => t.wait = s.wait
  | .kprev, s, t => t.kprev = s.kprev
  | .fb, s, t => t.fb = s.fb
  | .draws, s, t => t.draws = s.draws
  | .pending, s, t => t.pending = s.pending

/-- From `s` to `t` every part but the listed ones is unchanged. -/
def KeepsAllBut (ps : List Part) (s t : State) : Prop := ∀ p, p ∉ ps → p.Same s t

/-- Every general register but the listed ones is unchanged. -/
def RegsKeptBut (xs : List RegIdx) (s t : State) : Prop := ∀ k, k ∉ xs → t.reg k = s.reg k

/-- Every byte of memory outside `a .. a+n-1` is unchanged. -/
def BytesKeptOutside (a n : Nat) (s t : State) : Prop :=
  ∀ b, b < a ∨ a + n ≤ b → memGet t.mem b = memGet s.mem b

/-- The byte at address `b` after the bytes `bs` are written at `a` and up: the written one inside the block, else the
old one (20_memory.md R68). -/
def byteAfterStore (m : Memory) (a : Nat) (bs : List Byte) (b : Nat) : Byte :=
  if a ≤ b then bs.getD (b - a) (memGet m b) else memGet m b

/-- A fetch in `t`, at any address where a fetch can succeed, reads memory as it was in `s` with `bs` written at `a` and
up, with no other action between (20_memory.md R65, R71): inside the block, across an edge of it, or outside it. -/
def FetchSeesStore (a : Nat) (bs : List Byte) (s t : State) : Prop :=
  ∀ p : Word, p.toNat < 4095 →
    fetchBytes { t with pc := p } = [byteAfterStore s.mem a bs p.toNat, byteAfterStore s.mem a bs (p.toNat + 1)]

/-! ### Who may write what (10_state.md R32) -/

/-- The parts that an instruction may write beyond the fetch's advance of `pc` (R32, column "instructions that write"). -/
def writesOf : Instr → List Part
  | .cls => [.fb]
  | .ret => [.pc, .sp]
  | .jp _ | .jpV0 _ => [.pc]
  | .call _ => [.pc, .stack, .sp]
  | .seImm _ _ | .sneImm _ _ | .seReg _ _ | .sneReg _ _ | .skp _ | .sknp _ => [.pc]
  | .ldImm _ _ | .addImm _ _ | .ldReg _ _ | .orReg _ _ | .andReg _ _ | .xorReg _ _ | .addReg _ _ | .subReg _ _
  | .shr _ _ | .subnReg _ _ | .shl _ _ => [.v]
  | .ldI _ | .addI _ | .ldF _ => [.i]
  | .rnd _ _ => [.v, .draws]
  | .drw _ _ _ => [.v, .fb]
  | .ldVxDt _ => [.v]
  | .ldVxK _ => [.wait, .kprev]
  | .ldDtVx _ => [.dt]
  | .ldStVx _ => [.st]
  | .ldB _ | .ldMemVx _ => [.mem]
  | .ldVxMem _ => [.v]

/-- The parts that an event may write: for `CYCLE`, those of the key-wait poll or of the instruction at `pc`
(R32, columns "instructions that write" and "host events that write"). -/
def eventWrites (e : Event) (s : State) : List Part :=
  match e with
  | .reset => [.mem, .v, .i, .pc, .stack, .sp, .dt, .st, .key, .wait, .kprev, .fb]
  | .loadFont | .loadRom _ => [.mem]
  | .tick => [.dt, .st]
  | .setKey _ _ => [.key]
  | .cycle =>
    match s.wait with
    | some _ => [.v, .wait, .kprev]
    | none =>
      match decodeBytes (fetchBytes s) with
      | .instr i => .pc :: writesOf i
      | .unknownOpcode _ | .truncated => []

/-! ### The invariant of every reachable state (10_state.md R33) -/

/-- R33 (a), (c), (d), and the canonical form of memory. R33 (b), `sp <= 16`, is the type of `sp`. That (a)
holds is decision D10 (log entry 15), (c) decision D30 (log entry 20); the form of memory is the model's (log entry 9). -/
structure StateInv (s : State) : Prop where
  /-- the memory list is in canonical form -/
  mem_wf : s.mem.wf = true
  /-- (a) -/
  i_lt : s.i.toNat < 4096
  /-- (c) -/
  pc_le : s.pc.toNat ≤ 0x10FE
  /-- (d) -/
  stack_le : ∀ j : Fin 16, j.val < s.sp.val → (s.stack[j.val]).toNat ≤ 4096

/-! ### Errors (60_exceptions.md R240 to R244) -/

/-- The error that an instruction raises in a state, if any: the table of R240 and R244, instruction by instruction. -/
def faultOf (i : Instr) (s : State) : Option Fault :=
  match i with
  | .call _ => if s.sp = 16 then some .stackOverflow else none
  | .ret => if s.sp = 0 then some .stackUnderflow else none
  | .addI x =>
    if 4096 ≤ s.i.toNat + (s.reg x).toNat then
      some (.outOfBounds (BitVec.ofNat 16 (s.i.toNat + (s.reg x).toNat)))
    else none
  | .drw _ _ n => if 0 < n ∧ 4096 < s.i.toNat + n then some (.outOfBounds 4096) else none
  | .ldB _ => if 4096 ≤ s.i.toNat + 2 then some (.outOfBounds 4096) else none
  | .ldMemVx x | .ldVxMem x => if 4096 ≤ s.i.toNat + x.val then some (.outOfBounds 4096) else none
  | .cls | .jp _ | .jpV0 _ | .seImm _ _ | .sneImm _ _ | .seReg _ _ | .sneReg _ _ | .skp _ | .sknp _
  | .ldImm _ _ | .addImm _ _ | .ldReg _ _ | .orReg _ _ | .andReg _ _ | .xorReg _ _ | .addReg _ _ | .subReg _ _
  | .shr _ _ | .subnReg _ _ | .shl _ _ | .ldI _ | .rnd _ _ | .ldVxDt _ | .ldVxK _ | .ldDtVx _ | .ldStVx _
  | .ldF _ => none

/-! ### Sprites (43_display.md R190, R192) -/

/-- The pixel at row `r`, column `c` lies under a 1-bit of the sprite of `DRW Vx,Vy,n`: bit `7 - b` of sprite row `j`,
with every coordinate reduced to the grid. -/
def SpriteCovers (x y : RegIdx) (n : Nat) (s : State) (r : Fin 32) (c : Fin 64) : Prop :=
  ∃ j b, j < n ∧ b < 8 ∧ r.val = ((s.reg y).toNat + j) % 32 ∧ c.val = ((s.reg x).toNat + b) % 64 ∧
    (memGet s.mem (s.i.toNat + j)).getLsbD (7 - b) = true

/-! ### States that cannot be told apart (10_state.md R26, R30) -/

/-- Two states that differ at most in what the spec calls unobservable: stack entries at or above `sp` (R26), and, while
the engine is `Running`, the key-wait sample `KPREV` (R30). -/
structure LooksAlike (s t : State) : Prop where
  kept : ∀ p : Part, p ∉ [.stack, .kprev] → p.Same s t
  memory : t.mem = s.mem
  stack : ∀ j : Fin 16, j.val < s.sp.val → t.stack[j.val] = s.stack[j.val]
  sample : s.wait ≠ none → t.kprev = s.kprev

end Sys2Proof.Machine
end

