-- ==== Sys2Proof/Certificates/Slice0/Obligations.lean ====
section
/-! DEFINITION. The statements about the machine. In a statement about `exec`, `s` is the state an instruction runs in,
its `pc` already advanced past the instruction (40_flow.md R120); `StepRunsDecodedInstruction` ties `exec` to `step`. -/

open Sys2Proof Sys2Proof.Machine

/-! ### Encoding -/

/-- No bit of an encoding is dropped: decoding the word, or the two bytes, of a well-formed instruction gives it back
(R91, R92, R94, R96; the bit patterns are general knowledge, G1 and G2, log entry 1). -/
def Obligations.DecodeEncodeRoundTrip : Prop :=
  ∀ i : Instr, i.wellFormed = true → decode (encode i) = some i ∧ decodeBytes (encodeBytes i) = .instr i

/-- Every legal word has one meaning: a word that decodes is the word of the well-formed instruction it decodes to
(R94, R98: the ignored `y` of the shifts is kept; bit patterns G1, log entry 1). -/
def Obligations.EncodeDecodeRoundTrip : Prop :=
  ∀ (w : Word) (i : Instr), decode w = some i → i.wellFormed = true ∧ encode i = w

/-- R94, R96: a word that decodes matches exactly one of the 34 rows, that of its instruction, and a word that does not
decode matches none (the table's bit patterns are general knowledge, G1, log entry 1). -/
def Obligations.OpcodeTableAgreesWithDecode : Prop :=
  ∀ w : Word, opcodeTable.filter (rowMatches w) =
    match decode w with
    | some i => [rowOf i]
    | none => []

/-- R95, R97: the illegal words, by arithmetic on the word (decision D13, log entry 17: the second-level tests
are exact). -/
def Obligations.IllegalWordsListed : Prop :=
  ∀ w : Word, decode w = none ↔
    (w.toNat / 4096 = 0 ∧ w.toNat ≠ 0x00E0 ∧ w.toNat ≠ 0x00EE) ∨
    ((w.toNat / 4096 = 5 ∨ w.toNat / 4096 = 9) ∧ w.toNat % 16 ≠ 0) ∨
    (w.toNat / 4096 = 8 ∧ w.toNat % 16 ∈ [0x8, 0x9, 0xA, 0xB, 0xC, 0xD, 0xF]) ∨
    (w.toNat / 4096 = 14 ∧ w.toNat % 256 ∉ [0x9E, 0xA1]) ∨
    (w.toNat / 4096 = 15 ∧ w.toNat % 256 ∉ [0x07, 0x0A, 0x15, 0x18, 0x1E, 0x29, 0x33, 0x55, 0x65])

/-- Words written out from R95 and R96, one or more of each family, and two illegal ones (bit patterns G1, log entry 1).
-/
def Obligations.SampleWordsDecode : Prop :=
  decode 0x00E0 = some .cls ∧ decode 0x00EE = some .ret ∧ decode 0x1234 = some (.jp 0x234) ∧
  decode 0x332A = some (.seImm 3 0x2A) ∧ decode 0x5120 = some (.seReg 1 2) ∧
  decode 0x6012 = some (.ldImm 0 0x12) ∧ decode 0x7003 = some (.addImm 0 0x03) ∧
  decode 0x8125 = some (.subReg 1 2) ∧ decode 0xA2F0 = some (.ldI 0x2F0) ∧ decode 0xC30F = some (.rnd 3 0x0F) ∧
  decode 0xD015 = some (.drw 0 1 5) ∧ decode 0xE29E = some (.skp 2) ∧ decode 0xF30A = some (.ldVxK 3) ∧
  decode 0xF255 = some (.ldMemVx 2) ∧ decode 0x0123 = none ∧ decode 0xF1FF = none

/-! ### The step -/

/-- R120, R223, R66: when the engine is running, the next event is `CYCLE` and the two bytes at `pc` decode to a
well-formed instruction, one step is that instruction run in the state with the event taken and `pc` advanced by 2.
(`nextEvent` and `takeEvent`, the host's coming events, are the model's choice, log entry 3; that an odd `pc` is fetched
from is decision D3, log entry 10.) -/
def Obligations.StepRunsDecodedInstruction : Prop :=
  ∀ (s : State) (i : Instr), s.wait = none → nextEvent s = .cycle → s.pc.toNat < 4095 →
    decodeBytes [memGet s.mem s.pc.toNat, memGet s.mem (s.pc.toNat + 1)] = .instr i →
    step s = exec i { takeEvent s with pc := s.pc + 2 }

/-- R65, R94, R241, R223: the fetch fails with `OutOfBounds(pc)` where `pc >= 4095`; otherwise its word is
`MEM[pc] ++ MEM[pc+1]`: where that word is no instruction the step fails with it, and where it is one the step runs it.
(The reported address is decision D17, log entry 8; the odd `pc` is D3, log entry 10; the host's coming events are the
model's choice, log entry 3.) -/
def Obligations.FetchTakesTheWordAtPc : Prop :=
  ∀ s : State, s.wait = none → nextEvent s = .cycle →
    (4095 ≤ s.pc.toNat → step s = .fault (.outOfBounds s.pc)) ∧
    (s.pc.toNat < 4095 →
      (decode (memGet s.mem s.pc.toNat ++ memGet s.mem (s.pc.toNat + 1)) = none →
        step s = .fault (.unknownOpcode (memGet s.mem s.pc.toNat ++ memGet s.mem (s.pc.toNat + 1)))) ∧
      ∀ i, decode (memGet s.mem s.pc.toNat ++ memGet s.mem (s.pc.toNat + 1)) = some i →
        step s = exec i { takeEvent s with pc := s.pc + 2 })

/-- R221, R270: `RESET` succeeds in every state and leaves every piece of the core's state at its reset value; memory is
then all zero and a `CYCLE` raises `UnknownOpcode(0x0000)`. (`KPREV` and its value are decision D6, log entry 11; that
`draws` and `pending` are kept is the model's choice, log entries 2 and 3.) -/
def Obligations.ResetEvent : Prop :=
  ∀ s : State, ∃ t, applyEvent .reset s = .next t ∧
    (∀ a, memGet t.mem a = 0) ∧ (∀ k, t.reg k = 0) ∧ t.i = 0 ∧ t.pc = 0x0200 ∧
    (∀ j : Fin 16, t.stack[j.val] = 0) ∧ t.sp = 0 ∧ t.dt = 0 ∧ t.st = 0 ∧
    (∀ k : KeyIdx, t.key[k.val] = false) ∧ (∀ k : KeyIdx, t.kprev[k.val] = false) ∧ t.wait = none ∧
    (∀ r c, pixel t.fb r c = false) ∧ KeepsAllBut (eventWrites .reset s) s t ∧
    applyEvent .cycle t = .fault (.unknownOpcode 0)

/-- R33: the reset state of R270 meets the invariant (whose choices, D10 first, `StepKeepsInvariant` names: log entries 15,
20, 23 and 9). -/
def Obligations.ResetMeetsInvariant : Prop := StateInv State.reset

/-- R33: from every state that meets the invariant, a step that completes gives a state that meets it. (The clause
`I < 4096` rests on the choice of decision D10, log entry 15, and the bounds on `pc` and the stack on D30 and D23, log
entries 20 and 23; the host's coming events and the canonical form of memory are the model's choice, log entries 3
and 9.) -/
def Obligations.StepKeepsInvariant : Prop :=
  ∀ s t : State, StateInv s → step s = .next t → StateInv t

/-- R33: the invariant holds after every sequence of events from the reset state, the ones that end in an error
included, and in every such state the host reads 2048 pixels (f). (The clause `I < 4096` rests on the choice of decision
D10, log entry 15, and the bounds on `pc` and the stack on D30 and D23, log entries 20 and 23; that the host goes on past
an error, in an unchanged state, is D4, log entry 7; the canonical form of memory is the model's choice, log entry 9.) -/
def Obligations.ReachableStatesMeetInvariant : Prop :=
  ∀ es : List Event, StateInv (afterEvents es State.reset).1 ∧
    (fbOutput (afterEvents es State.reset).1).2.2.length = 2048

/-- R246 (decision D4): an event that reports an error leaves the state as it was, bit for bit, and no event is without
an answer (log entry 7). -/
def Obligations.ErrorLeavesState : Prop :=
  ∀ (e : Event) (s : State),
    (∀ f, (afterEvent e s).2 = .error f → (afterEvent e s).1 = s ∧ applyEvent e s = .fault f) ∧
    ∀ r, applyEvent e s ≠ .refused r

/-- R240, R244: an instruction raises exactly the errors of the table, and completes in every other case
(which access raises with which address rests on decisions D10 and D17, log entries 8 and 15). -/
def Obligations.ExactlyTheListedErrors : Prop :=
  ∀ (i : Instr) (s : State),
    (∀ f, exec i s = .fault f ↔ faultOf i s = some f) ∧ (faultOf i s = none → ∃ t, exec i s = .next t)

/-- R249: after a `CYCLE` that fails, any number of `TICK`, `SET_KEY` and `CYCLE` events leave the next `CYCLE` failing
with the same error (that the failed cycle kept nothing is decision D4, log entry 7). -/
def Obligations.FailureRepeatsUntilReload : Prop :=
  ∀ (s : State) (f : Fault) (es : List Event), applyEvent .cycle s = .fault f →
    (∀ e ∈ es, e = .cycle ∨ e = .tick ∨ ∃ k p, e = .setKey k p) →
    applyEvent .cycle (afterEvents es s).1 = .fault f

/-- R32, R31, R27, R28: an event changes no part of the state outside its row of the access table; for a `CYCLE`, the row
of the instruction at `pc` (which changes `pc` too), or of the key-wait poll. (Decisions D6, `KPREV`; D9, no block
transfer changes `I`; D25, what `LOAD_ROM` writes; D27, `TICK` in key-wait; log entries 11, 14, 22 and 21. That `RESET`
keeps `draws` and `pending` is the model's choice, log entries 2 and 3.) -/
def Obligations.EventsWriteOnlyTheirParts : Prop :=
  ∀ (e : Event) (s t : State), applyEvent e s = .next t → KeepsAllBut (eventWrites e s) s t

/-! ### Key-wait -/

/-- R203 (decisions D5 and D6, log entry 11): `LD Vx,K` starts the wait with the keypad as the sample; `pc` and `V[x]`
are left alone. -/
def Obligations.KeyWaitEntry : Prop :=
  ∀ (x : RegIdx) (s : State), ∃ t, exec (.ldVxK x) s = .next t ∧
    t.wait = some x ∧ t.kprev = s.key ∧ KeepsAllBut [.wait, .kprev] s t

/-- R204 (decisions D6 and D26, log entry 11): a `CYCLE` in key-wait fetches nothing; with no key gone down it only
samples the keypad, else the lowest such key goes to `V[x]` and the wait ends, nothing else changing. -/
def Obligations.KeyWaitPoll : Prop :=
  ∀ (x : RegIdx) (s : State), s.wait = some x → ∃ t, applyEvent .cycle s = .next t ∧
    ((∀ k : KeyIdx, ¬(s.key[k.val] = true ∧ s.kprev[k.val] = false)) →
      t.kprev = s.key ∧ KeepsAllBut [.kprev] s t) ∧
    ∀ k : KeyIdx, s.key[k.val] = true → s.kprev[k.val] = false →
      (∀ j : KeyIdx, j < k → ¬(s.key[j.val] = true ∧ s.kprev[j.val] = false)) →
      (t.reg x).toNat = k.val ∧ t.wait = none ∧ RegsKeptBut [x] s t ∧ KeepsAllBut [.v, .wait] s t

/-- R29, R255: a wait is entered only by a `CYCLE` that runs `LD Vx,K`, and left only by `RESET` or by a `CYCLE` that
sees a key down that was up at the last sample (decision D6, log entry 11). -/
def Obligations.KeyWaitEnteredAndLeft : Prop :=
  ∀ (e : Event) (s t : State), applyEvent e s = .next t →
    (∀ x, s.wait = none → t.wait = some x → e = .cycle ∧ decodeBytes (fetchBytes s) = .instr (.ldVxK x)) ∧
    (∀ x, s.wait = some x → t.wait ≠ some x → t.wait = none ∧
      (e = .reset ∨ (e = .cycle ∧ ∃ k : KeyIdx, s.key[k.val] = true ∧ s.kprev[k.val] = false)))

/-! ### The host's other events and outputs -/

/-- R224: `TICK` takes 1 from each timer that is above 0, on its own, and changes nothing else, in key-wait too
(decision D27,
log entry 21). -/
def Obligations.TickEvent : Prop :=
  ∀ s : State, ∃ t, applyEvent .tick s = .next t ∧
    t.dt.toNat = s.dt.toNat - 1 ∧ t.st.toNat = s.st.toNat - 1 ∧ KeepsAllBut [.dt, .st] s t

/-- R27, R33 (e), R224 (decision D27, log entry 21): after any number of ticks each timer holds its old value less that
number, but never less than 0. -/
def Obligations.TimersAfterTicks : Prop :=
  ∀ (n : Nat) (s : State),
    (afterEvents (List.replicate n .tick) s).1.dt.toNat = s.dt.toNat - n ∧
    (afterEvents (List.replicate n .tick) s).1.st.toNat = s.st.toNat - n ∧
    KeepsAllBut [.dt, .st] s (afterEvents (List.replicate n .tick) s).1

/-- R227: `SET_KEY(k, p)` sets one key level and changes nothing else (decision D24, log entry 22: the key number is 4
bits). -/
def Obligations.SetKeyEvent : Prop :=
  ∀ (k : KeyIdx) (p : Bool) (s : State), ∃ t, applyEvent (.setKey k p) s = .next t ∧
    t.key[k.val] = p ∧ (∀ j : KeyIdx, j ≠ k → t.key[j.val] = s.key[j.val]) ∧ KeepsAllBut [.key] s t

/-- R225 (decision D25, log entry 22): a ROM of at most 3584 bytes is copied to `0x200` and up and nothing else changes;
a longer one is refused with `RomTooLarge` and no change. -/
def Obligations.LoadRomEvent : Prop :=
  ∀ (bytes : List Byte) (s : State),
    (3584 < bytes.length → applyEvent (.loadRom bytes) s = .fault .romTooLarge ∧
      afterEvent (.loadRom bytes) s = (s, .error .romTooLarge)) ∧
    (bytes.length ≤ 3584 → ∃ t, applyEvent (.loadRom bytes) s = .next t ∧
      (∀ k (h : k < bytes.length), memGet t.mem (0x200 + k) = bytes[k]) ∧
      BytesKeptOutside 0x200 bytes.length s t ∧ KeepsAllBut [.mem] s t)

/-- R222: `LOAD_FONT` writes the 80 bytes of the font table to `0x050` and up and changes nothing else; a second one
changes nothing. (The address is decision D1, log entry 5; the bytes of the table are R226's, log entry 6, and the
statement holds whatever they are.) -/
def Obligations.LoadFontEvent : Prop :=
  font.length = 80 ∧ ∀ s : State, ∃ t, applyEvent .loadFont s = .next t ∧
    (∀ k (h : k < font.length), memGet t.mem (0x050 + k) = font[k]) ∧
    BytesKeptOutside 0x050 80 s t ∧ KeepsAllBut [.mem] s t ∧
    ∃ u, applyEvent .loadFont t = .next u ∧ KeepsAllBut [] t u

/-- R229: `SOUND` is 1 exactly while `ST > 0`, and changes only at a `CYCLE` that runs `LD ST,Vx` (the engine `Running`,
and that instruction at `pc`), at `TICK` and at `RESET`. -/
def Obligations.SoundOutput : Prop :=
  (∀ s : State, soundOutput s = true ↔ 0 < s.st.toNat) ∧
  ∀ (e : Event) (s t : State), applyEvent e s = .next t → soundOutput t ≠ soundOutput s →
    e = .tick ∨ e = .reset ∨
      (e = .cycle ∧ s.wait = none ∧ ∃ x, decodeBytes (fetchBytes s) = .instr (.ldStVx x))

/-- R228 (decision D19, log entry 18): the host reads 64, 32 and 2048 pixel bits, pixel `(r, c)` at element `r * 64 +
c`. -/
def Obligations.FramebufferOutput : Prop :=
  ∀ s : State, (fbOutput s).1 = 64 ∧ (fbOutput s).2.1 = 32 ∧ (fbOutput s).2.2.length = 2048 ∧
    ∀ (r : Fin 32) (c : Fin 64), (fbOutput s).2.2[r.val * 64 + c.val]? = some (pixel s.fb r c)

/-- R26, R30: stack entries at or above `sp`, and `KPREV` while the engine is running, are unobservable: two states that
differ only there answer every event alike, with states that again differ only there and with the same outputs
(decisions D28 and D6, log entries 23 and 11). -/
def Obligations.HiddenStateUnobservable : Prop :=
  ∀ (e : Event) (s t : State), LooksAlike s t →
    (∀ f, applyEvent e s = .fault f → applyEvent e t = .fault f) ∧
    (∀ s', applyEvent e s = .next s' → ∃ t', applyEvent e t = .next t' ∧ LooksAlike s' t' ∧
      fbOutput t' = fbOutput s' ∧ soundOutput t' = soundOutput s')

/-! ### Framebuffer instructions -/

/-- R191: `CLS` clears every pixel and changes nothing else. -/
def Obligations.ClearScreen : Prop :=
  decode 0x00E0 = some .cls ∧ ∀ s : State, ∃ t, exec .cls s = .next t ∧
    (∀ r c, pixel t.fb r c = false) ∧ KeepsAllBut [.fb] s t

/-- R192 (decisions D15, D17 and D29, log entries 18 and 8): a pixel is flipped exactly where a 1-bit of the sprite
falls on it, coordinates wrapping; `VF` is 1 if one of those was set, else 0; an access past `0xFFF` raises
`OutOfBounds(4096)`. -/
def Obligations.DrawSprite : Prop :=
  ∀ (x y : RegIdx) (n : Nat) (s : State), n < 16 →
    (0 < n → 4096 < s.i.toNat + n → exec (.drw x y n) s = .fault (.outOfBounds 4096)) ∧
    (n = 0 ∨ s.i.toNat + n ≤ 4096 → ∃ t, exec (.drw x y n) s = .next t ∧
      (∀ r c, pixel t.fb r c = true ↔ Xor (pixel s.fb r c = true) (SpriteCovers x y n s r c)) ∧
      (t.reg vF = 1 ∨ t.reg vF = 0) ∧
      (t.reg vF = 1 ↔ ∃ r c, SpriteCovers x y n s r c ∧ pixel s.fb r c = true) ∧
      RegsKeptBut [vF] s t ∧ KeepsAllBut [.v, .fb] s t)

/-- R192 (f): the same sprite drawn again at the same coordinates restores the framebuffer, and the second `VF` is 1
exactly if some pixel under the sprite was unset before the first draw (derived by the spec; D15, log entry 18). -/
def Obligations.DrawTwiceRestores : Prop :=
  ∀ (x y : RegIdx) (n : Nat) (s : State), n < 16 → (n = 0 ∨ s.i.toNat + n ≤ 4096) →
    ∃ t, exec (.drw x y n) s = .next t ∧ (t.reg x = s.reg x → t.reg y = s.reg y →
      ∃ u, exec (.drw x y n) t = .next u ∧ u.fb = s.fb ∧
        (u.reg vF = 1 ↔ ∃ r c, SpriteCovers x y n s r c ∧ pixel s.fb r c = false))

/-! ### Control transfer -/

/-- R122: `RET` pops the last entry in use into `pc`; with none in use it raises `StackUnderflow`. (The bit pattern
is general knowledge, G1, log entry 1.) -/
def Obligations.ReturnPops : Prop :=
  decode 0x00EE = some .ret ∧ ∀ s : State,
    (s.sp.val = 0 → exec .ret s = .fault .stackUnderflow) ∧
    (0 < s.sp.val → ∃ t, exec .ret s = .next t ∧ t.sp.val = s.sp.val - 1 ∧
      (∀ j : Fin 16, j.val = s.sp.val - 1 → t.pc = s.stack[j.val]) ∧ KeepsAllBut [.pc, .sp] s t)

/-- R124: `CALL nnn` pushes the advanced `pc` and jumps; with 16 entries in use it raises `StackOverflow`.
(That the pushed value is the advanced `pc` is reading D23, log entry 23; bit pattern G1, log entry 1.) -/
def Obligations.CallPushes : Prop :=
  ∀ (nnn : Imm12) (s : State), decode (formatNNN 0x2 nnn) = some (.call nnn) ∧
    (s.sp.val = 16 → exec (.call nnn) s = .fault .stackOverflow) ∧
    (s.sp.val < 16 → ∃ t, exec (.call nnn) s = .next t ∧ t.sp.val = s.sp.val + 1 ∧ t.pc.toNat = nnn.toNat ∧
      (∀ j : Fin 16, t.stack[j.val] = if j.val = s.sp.val then s.pc else s.stack[j.val]) ∧
      KeepsAllBut [.pc, .stack, .sp] s t)

/-- R124, R122: a `RET` that finds the stack as a `CALL` left it resumes after that `CALL`, with the stack as before it
(decisions D23 and D28, log entry 23). -/
def Obligations.CallThenReturn : Prop :=
  ∀ (nnn : Imm12) (s : State), s.sp.val < 16 → ∃ t, exec (.call nnn) s = .next t ∧
    ∀ u : State, u.stack = t.stack → u.sp = t.sp →
      ∃ w, exec .ret u = .next w ∧ w.pc = s.pc ∧ w.sp = s.sp ∧
        ∀ j : Fin 16, j.val < s.sp.val → w.stack[j.val] = s.stack[j.val]

/-- R123: `JP nnn` sets `pc` to any 12-bit address and changes nothing else (bit pattern G1, log entry 1). -/
def Obligations.JumpAbsolute : Prop :=
  ∀ (nnn : Imm12) (s : State), decode (formatNNN 0x1 nnn) = some (.jp nnn) ∧
    ∃ t, exec (.jp nnn) s = .next t ∧ t.pc.toNat = nnn.toNat ∧ KeepsAllBut [.pc] s t

/-- R129 (decision D30, log entry 20): `JP V0,nnn` sets `pc` to the sum with `V0`, not reduced to 12 bits. -/
def Obligations.JumpV0 : Prop :=
  ∀ (nnn : Imm12) (s : State), ∃ t, exec (.jpV0 nnn) s = .next t ∧
    t.pc.toNat = nnn.toNat + (s.reg 0).toNat ∧ KeepsAllBut [.pc] s t

/-- R125, R126, R121: the two skips on a register and an immediate (bit patterns G1, log entry 1). -/
def Obligations.SkipOnImmediate : Prop :=
  ∀ (x : RegIdx) (nn : Byte) (s : State),
    decode (formatXNN 0x3 x nn) = some (.seImm x nn) ∧ decode (formatXNN 0x4 x nn) = some (.sneImm x nn) ∧
    (∃ t, exec (.seImm x nn) s = .next t ∧ KeepsAllBut [.pc] s t ∧
      t.pc = if s.reg x = nn then s.pc + 2 else s.pc) ∧
    (∃ t, exec (.sneImm x nn) s = .next t ∧ KeepsAllBut [.pc] s t ∧
      t.pc = if s.reg x ≠ nn then s.pc + 2 else s.pc)

/-- R127, R128, R121: the two skips on two registers (bit patterns G1, log entry 1). -/
def Obligations.SkipOnRegisters : Prop :=
  ∀ (x y : RegIdx) (s : State),
    decode (formatXYN 0x5 x y 0) = some (.seReg x y) ∧ decode (formatXYN 0x9 x y 0) = some (.sneReg x y) ∧
    (∃ t, exec (.seReg x y) s = .next t ∧ KeepsAllBut [.pc] s t ∧
      t.pc = if s.reg x = s.reg y then s.pc + 2 else s.pc) ∧
    (∃ t, exec (.sneReg x y) s = .next t ∧ KeepsAllBut [.pc] s t ∧
      t.pc = if s.reg x ≠ s.reg y then s.pc + 2 else s.pc)

/-- R201, R202, R200 (decision D12, log entry 16: the low nibble selects the key): the two skips on a key level. -/
def Obligations.SkipOnKey : Prop :=
  ∀ (x : RegIdx) (s : State) (k : KeyIdx), k.val = (s.reg x).toNat % 16 →
    (∃ t, exec (.skp x) s = .next t ∧ KeepsAllBut [.pc] s t ∧
      t.pc = if s.key[k.val] = true then s.pc + 2 else s.pc) ∧
    (∃ t, exec (.sknp x) s = .next t ∧ KeepsAllBut [.pc] s t ∧
      t.pc = if s.key[k.val] = false then s.pc + 2 else s.pc)

/-! ### Load, arithmetic, logic, shift, random -/

/-- R141: `LD Vx,nn` loads the immediate. -/
def Obligations.LoadImmediate : Prop :=
  ∀ (x : RegIdx) (nn : Byte) (s : State), decode (formatXNN 0x6 x nn) = some (.ldImm x nn) ∧
    ∃ t, exec (.ldImm x nn) s = .next t ∧ t.reg x = nn ∧ RegsKeptBut [x] s t ∧ KeepsAllBut [.v] s t

/-- R142 (decision D14, log entry 13: `VF` is not written): `ADD Vx,nn` wraps modulo 256. -/
def Obligations.AddImmediate : Prop :=
  ∀ (x : RegIdx) (nn : Byte) (s : State), ∃ t, exec (.addImm x nn) s = .next t ∧
    (t.reg x).toNat = ((s.reg x).toNat + nn.toNat) % 256 ∧ RegsKeptBut [x] s t ∧ KeepsAllBut [.v] s t

/-- R143: `LD Vx,Vy` copies a register (that `8xy0` is the copy is general knowledge, log entry 1). -/
def Obligations.CopyRegister : Prop :=
  ∀ (x y : RegIdx) (s : State), ∃ t, exec (.ldReg x y) s = .next t ∧
    t.reg x = s.reg y ∧ RegsKeptBut [x] s t ∧ KeepsAllBut [.v] s t

/-- R144, R145, R146 (decision D8, log entry 13: `VF` is not written): bit by bit OR, AND and exclusive OR. -/
def Obligations.LogicOperations : Prop :=
  ∀ (x y : RegIdx) (s : State),
    (∃ t, exec (.orReg x y) s = .next t ∧ RegsKeptBut [x] s t ∧ KeepsAllBut [.v] s t ∧
      ∀ b, (t.reg x).getLsbD b = ((s.reg x).getLsbD b || (s.reg y).getLsbD b)) ∧
    (∃ t, exec (.andReg x y) s = .next t ∧ RegsKeptBut [x] s t ∧ KeepsAllBut [.v] s t ∧
      ∀ b, (t.reg x).getLsbD b = ((s.reg x).getLsbD b && (s.reg y).getLsbD b)) ∧
    (∃ t, exec (.xorReg x y) s = .next t ∧ RegsKeptBut [x] s t ∧ KeepsAllBut [.v] s t ∧
      ∀ b, (t.reg x).getLsbD b = ((s.reg x).getLsbD b ^^ (s.reg y).getLsbD b))

/-- R147: `ADD Vx,Vy` wraps modulo 256 and leaves the carry out in `VF`, which wins where `x` is `0xF` (bit pattern G1,
log entry 1). -/
def Obligations.AddWithCarryOut : Prop :=
  ∀ (x y : RegIdx) (s : State), decode (formatXYN 0x8 x y 0x4) = some (.addReg x y) ∧
    ∃ t, exec (.addReg x y) s = .next t ∧
      (x ≠ vF → (t.reg x).toNat = ((s.reg x).toNat + (s.reg y).toNat) % 256) ∧
      (t.reg vF).toNat = (if 255 < (s.reg x).toNat + (s.reg y).toNat then 1 else 0) ∧
      RegsKeptBut [x, vF] s t ∧ KeepsAllBut [.v] s t

/-- R148: `SUB Vx,Vy` is `Vx - Vy` modulo 256 with NOT borrow in `VF`, which wins where `x` is `0xF`. -/
def Obligations.SubtractWithBorrow : Prop :=
  ∀ (x y : RegIdx) (s : State), decode (formatXYN 0x8 x y 0x5) = some (.subReg x y) ∧
    ∃ t, exec (.subReg x y) s = .next t ∧
      (x ≠ vF → (t.reg x).toNat = ((s.reg x).toNat + 256 - (s.reg y).toNat) % 256) ∧
      (t.reg vF).toNat = (if (s.reg y).toNat ≤ (s.reg x).toNat then 1 else 0) ∧
      RegsKeptBut [x, vF] s t ∧ KeepsAllBut [.v] s t

/-- R150: `SUBN Vx,Vy` is `Vy - Vx` modulo 256, to `Vx`, with NOT borrow in `VF`, which wins where `x` is `0xF`
(bit pattern G1, log entry 1). -/
def Obligations.SubtractReversed : Prop :=
  ∀ (x y : RegIdx) (s : State), decode (formatXYN 0x8 x y 0x7) = some (.subnReg x y) ∧
    ∃ t, exec (.subnReg x y) s = .next t ∧
      (x ≠ vF → (t.reg x).toNat = ((s.reg y).toNat + 256 - (s.reg x).toNat) % 256) ∧
      (t.reg vF).toNat = (if (s.reg x).toNat ≤ (s.reg y).toNat then 1 else 0) ∧
      RegsKeptBut [x, vF] s t ∧ KeepsAllBut [.v] s t

/-- R149 (decision D7, log entry 12: `Vx` in place, `y` ignored): `SHR Vx` halves, with the bit shifted out in `VF`. -/
def Obligations.ShiftRight : Prop :=
  ∀ (x y : RegIdx) (s : State), ∃ t, exec (.shr x y) s = .next t ∧
    (x ≠ vF → (t.reg x).toNat = (s.reg x).toNat / 2) ∧ (t.reg vF).toNat = (s.reg x).toNat % 2 ∧
    RegsKeptBut [x, vF] s t ∧ KeepsAllBut [.v] s t

/-- R151 (decision D7, log entry 12: `Vx` in place, `y` ignored): `SHL Vx` doubles modulo 256, with the bit shifted out
in `VF`. -/
def Obligations.ShiftLeft : Prop :=
  ∀ (x y : RegIdx) (s : State), ∃ t, exec (.shl x y) s = .next t ∧
    (x ≠ vF → (t.reg x).toNat = (s.reg x).toNat * 2 % 256) ∧ (t.reg vF).toNat = (s.reg x).toNat / 128 ∧
    RegsKeptBut [x, vF] s t ∧ KeepsAllBut [.v] s t

/-- R153 (decision D20, log entry 2: the byte is free): `RND Vx,nn` consumes one draw, whatever it is, and masks it:
every bit that is 0 in the mask is 0 in the result. -/
def Obligations.RandomMasked : Prop :=
  ∀ (x : RegIdx) (nn : Byte) (s : State), ∃ t, exec (.rnd x nn) s = .next t ∧
    t.reg x = Config.randomByte s.draws &&& nn ∧ (∀ b, nn.getLsbD b = false → (t.reg x).getLsbD b = false) ∧
    t.draws = s.draws + 1 ∧ RegsKeptBut [x] s t ∧ KeepsAllBut [.v, .draws] s t

/-! ### Index register and memory -/

/-- R171: `LD I,nnn` sets `I` to the address (bit pattern G1, log entry 1). -/
def Obligations.SetIndex : Prop :=
  ∀ (nnn : Imm12) (s : State), decode (formatNNN 0xA nnn) = some (.ldI nnn) ∧
    ∃ t, exec (.ldI nnn) s = .next t ∧ t.i.toNat = nnn.toNat ∧ KeepsAllBut [.i] s t

/-- R172 (decision D10, log entry 15): `ADD I,Vx` adds where the sum is below 4096, and else raises `OutOfBounds` with
the sum; `VF` is not written. -/
def Obligations.AddToIndex : Prop :=
  ∀ (x : RegIdx) (s : State),
    (4096 ≤ s.i.toNat + (s.reg x).toNat →
      exec (.addI x) s = .fault (.outOfBounds (BitVec.ofNat 16 (s.i.toNat + (s.reg x).toNat)))) ∧
    (s.i.toNat + (s.reg x).toNat < 4096 → ∃ t, exec (.addI x) s = .next t ∧
      t.i.toNat = s.i.toNat + (s.reg x).toNat ∧ KeepsAllBut [.i] s t)

/-- R173 (decisions D1 and D11, log entries 5 and 16): `LD F,Vx` sets `I` to `0x050 + 5 * d` for the low nibble `d` of
`Vx`. -/
def Obligations.FontGlyphAddress : Prop :=
  ∀ (x : RegIdx) (s : State), ∃ t, exec (.ldF x) s = .next t ∧
    t.i.toNat = 0x050 + 5 * ((s.reg x).toNat % 16) ∧ KeepsAllBut [.i] s t

/-- R174 (decisions D16 and D17, log entries 19 and 8): `LD B,Vx` stores the hundreds, tens and ones at `I`, `I+1`,
`I+2` and nothing else; a base of 4094 or more raises `OutOfBounds(4096)`. -/
def Obligations.StoreDecimalDigits : Prop :=
  ∀ (x : RegIdx) (s : State),
    (4096 ≤ s.i.toNat + 2 → exec (.ldB x) s = .fault (.outOfBounds 4096)) ∧
    (s.i.toNat + 2 < 4096 → ∃ t, exec (.ldB x) s = .next t ∧
      (memGet t.mem s.i.toNat).toNat * 100 + (memGet t.mem (s.i.toNat + 1)).toNat * 10 +
        (memGet t.mem (s.i.toNat + 2)).toNat = (s.reg x).toNat ∧
      (memGet t.mem (s.i.toNat + 1)).toNat < 10 ∧ (memGet t.mem (s.i.toNat + 2)).toNat < 10 ∧
      BytesKeptOutside s.i.toNat 3 s t ∧ KeepsAllBut [.mem] s t)

/-- R175 (decisions D9: `I` is kept, and D17; log entries 14 and 8): `LD [I],Vx` stores `V0 .. Vx` at `I .. I+x` and
nothing else, or raises. -/
def Obligations.DumpRegisters : Prop :=
  ∀ (x : RegIdx) (s : State),
    (4096 ≤ s.i.toNat + x.val → exec (.ldMemVx x) s = .fault (.outOfBounds 4096)) ∧
    (s.i.toNat + x.val < 4096 → ∃ t, exec (.ldMemVx x) s = .next t ∧
      (∀ k : RegIdx, k.val ≤ x.val → memGet t.mem (s.i.toNat + k.val) = s.reg k) ∧
      BytesKeptOutside s.i.toNat (x.val + 1) s t ∧ KeepsAllBut [.mem] s t)

/-- R176 (decisions D9: `I` is kept, and D17; log entries 14 and 8): `LD Vx,[I]` loads `V0 .. Vx` from `I .. I+x` and
nothing else, or raises. -/
def Obligations.LoadRegisters : Prop :=
  ∀ (x : RegIdx) (s : State),
    (4096 ≤ s.i.toNat + x.val → exec (.ldVxMem x) s = .fault (.outOfBounds 4096)) ∧
    (s.i.toNat + x.val < 4096 → ∃ t, exec (.ldVxMem x) s = .next t ∧
      (∀ k : RegIdx, t.reg k = if k.val ≤ x.val then memGet s.mem (s.i.toNat + k.val) else s.reg k) ∧
      KeepsAllBut [.v] s t)

/-- R175, R176: registers dumped and loaded back from the same base hold their old values (decision D9, log entry 14). -/
def Obligations.DumpThenLoad : Prop :=
  ∀ (x : RegIdx) (s : State), s.i.toNat + x.val < 4096 → ∃ t, exec (.ldMemVx x) s = .next t ∧
    ∀ u : State, u.mem = t.mem → u.i = s.i →
      ∃ w, exec (.ldVxMem x) u = .next w ∧ ∀ k : RegIdx, w.reg k = if k.val ≤ x.val then s.reg k else u.reg k

/-- R71, R62, R65: bytes written by `LD [I],Vx`, `LD B,Vx`, `LOAD_ROM` or `LOAD_FONT` are what the next fetch reads, at
every address where a fetch can succeed: both bytes of the word inside the block, one of them, or none. (Odd addresses
are decision D3; where each writer puts which bytes are D1, D9, D16 and D25; log entries 10, 5, 14, 19 and 22.) -/
def Obligations.StoredBytesAreFetched : Prop :=
  ∀ s : State,
    (∀ x : RegIdx, s.i.toNat + x.val < 4096 → ∃ t, exec (.ldMemVx x) s = .next t ∧
      FetchSeesStore s.i.toNat (((List.finRange 16).take (x.val + 1)).map s.reg) s t) ∧
    (∀ x : RegIdx, s.i.toNat + 2 < 4096 → ∃ t, exec (.ldB x) s = .next t ∧
      FetchSeesStore s.i.toNat [BitVec.ofNat 8 ((s.reg x).toNat / 100), BitVec.ofNat 8 ((s.reg x).toNat / 10 % 10),
        BitVec.ofNat 8 ((s.reg x).toNat % 10)] s t) ∧
    (∀ bytes : List Byte, bytes.length ≤ 3584 → ∃ t, applyEvent (.loadRom bytes) s = .next t ∧
      FetchSeesStore 0x200 bytes s t) ∧
    ∃ t, applyEvent .loadFont s = .next t ∧ FetchSeesStore 0x050 font s t

/-! ### Timers -/

/-- R205: `LD Vx,DT` reads the delay timer (bit pattern G1, log entry 1). -/
def Obligations.DelayTimerGet : Prop :=
  ∀ (x : RegIdx) (s : State), decode (formatX 0xF x 0x07) = some (.ldVxDt x) ∧
    ∃ t, exec (.ldVxDt x) s = .next t ∧ t.reg x = s.dt ∧ RegsKeptBut [x] s t ∧ KeepsAllBut [.v] s t

/-- R206: `LD DT,Vx` sets the delay timer (bit pattern G1, log entry 1). -/
def Obligations.DelayTimerSet : Prop :=
  ∀ (x : RegIdx) (s : State), decode (formatX 0xF x 0x15) = some (.ldDtVx x) ∧
    ∃ t, exec (.ldDtVx x) s = .next t ∧ t.dt = s.reg x ∧ KeepsAllBut [.dt] s t

/-- R207: `LD ST,Vx`; `SOUND` is 1 at once where the value is above 0 (bit pattern G1, log entry 1). -/
def Obligations.SoundTimerSet : Prop :=
  ∀ (x : RegIdx) (s : State), decode (formatX 0xF x 0x18) = some (.ldStVx x) ∧
    ∃ t, exec (.ldStVx x) s = .next t ∧ t.st = s.reg x ∧ (soundOutput t = true ↔ 0 < (s.reg x).toNat) ∧
      KeepsAllBut [.st] s t
end

