-- ==== Sys2Proof/Laws/Decode.lean ====
section
/-! SUPPORT. Fields as numbers, and the fields of a word built in each format (30_encoding.md R91, R92). -/

namespace Sys2Proof

/-! ### Fields as numbers -/

theorem toNat_append_eq {n m : Nat} (a : BitVec n) (b : BitVec m) : (a ++ b).toNat = a.toNat * 2 ^ m + b.toNat := by
  rw [BitVec.toNat_append, ← Nat.shiftLeft_add_eq_or_of_lt b.isLt, Nat.shiftLeft_eq]

theorem toNat_opField (w : Word) : (opField w).toNat = w.toNat / 4096 := by
  have := w.isLt
  simp only [opField, BitVec.extractLsb'_toNat, Nat.shiftRight_eq_div_pow]; omega

theorem val_xField (w : Word) : (xField w).val = w.toNat / 256 % 16 := by
  simp [xField, BitVec.extractLsb', Nat.shiftRight_eq_div_pow]

theorem val_yField (w : Word) : (yField w).val = w.toNat / 16 % 16 := by
  simp [yField, BitVec.extractLsb', Nat.shiftRight_eq_div_pow]

theorem toNat_nField (w : Word) : (nField w).toNat = w.toNat % 16 := by
  simp [nField, BitVec.extractLsb'_toNat]

theorem toNat_nnField (w : Word) : (nnField w).toNat = w.toNat % 256 := by
  simp [nnField, BitVec.extractLsb'_toNat]

theorem toNat_nnnField (w : Word) : (nnnField w).toNat = w.toNat % 4096 := by
  simp [nnnField, BitVec.extractLsb'_toNat]

/-! ### Words as numbers -/

theorem toNat_formatNNN (op : BitVec 4) (nnn : Imm12) : (formatNNN op nnn).toNat = op.toNat * 4096 + nnn.toNat := by
  rw [formatNNN, toNat_append_eq]; omega

theorem toNat_formatXNN (op : BitVec 4) (x : RegIdx) (nn : Byte) :
    (formatXNN op x nn).toNat = op.toNat * 4096 + x.val * 256 + nn.toNat := by
  have : (regNibble x).toNat = x.val := rfl
  rw [formatXNN, toNat_append_eq, toNat_append_eq, this]; omega

theorem formatX_eq (op : BitVec 4) (x : RegIdx) (minor : Byte) : formatX op x minor = formatXNN op x minor := rfl

theorem toNat_formatXYN (op : BitVec 4) (x y : RegIdx) (n : BitVec 4) :
    (formatXYN op x y n).toNat = op.toNat * 4096 + x.val * 256 + y.val * 16 + n.toNat := by
  have h : ∀ z : RegIdx, (regNibble z).toNat = z.val := fun _ => rfl
  rw [formatXYN, ofNibbles, toNat_append_eq, toNat_append_eq, toNat_append_eq, h, h]; omega

/-! ### The fields of each format -/

@[simp] theorem opField_formatNNN (op : BitVec 4) (nnn : Imm12) : opField (formatNNN op nnn) = op := by
  apply BitVec.eq_of_toNat_eq
  rw [toNat_opField, toNat_formatNNN]; have := nnn.isLt; omega

@[simp] theorem nnnField_formatNNN (op : BitVec 4) (nnn : Imm12) : nnnField (formatNNN op nnn) = nnn := by
  apply BitVec.eq_of_toNat_eq
  rw [toNat_nnnField, toNat_formatNNN]; have := nnn.isLt; omega

@[simp] theorem opField_formatXNN (op : BitVec 4) (x : RegIdx) (nn : Byte) : opField (formatXNN op x nn) = op := by
  apply BitVec.eq_of_toNat_eq
  rw [toNat_opField, toNat_formatXNN]; have := nn.isLt; have := x.isLt; omega

@[simp] theorem xField_formatXNN (op : BitVec 4) (x : RegIdx) (nn : Byte) : xField (formatXNN op x nn) = x := by
  apply Fin.ext
  rw [val_xField, toNat_formatXNN]; have := nn.isLt; have := x.isLt; omega

@[simp] theorem nnField_formatXNN (op : BitVec 4) (x : RegIdx) (nn : Byte) : nnField (formatXNN op x nn) = nn := by
  apply BitVec.eq_of_toNat_eq
  rw [toNat_nnField, toNat_formatXNN]; have := nn.isLt; omega

@[simp] theorem opField_formatXYN (op : BitVec 4) (x y : RegIdx) (n : BitVec 4) :
    opField (formatXYN op x y n) = op := by
  apply BitVec.eq_of_toNat_eq
  rw [toNat_opField, toNat_formatXYN]; have := n.isLt; have := x.isLt; have := y.isLt; omega

@[simp] theorem xField_formatXYN (op : BitVec 4) (x y : RegIdx) (n : BitVec 4) : xField (formatXYN op x y n) = x := by
  apply Fin.ext
  rw [val_xField, toNat_formatXYN]; have := n.isLt; have := x.isLt; have := y.isLt; omega

@[simp] theorem yField_formatXYN (op : BitVec 4) (x y : RegIdx) (n : BitVec 4) : yField (formatXYN op x y n) = y := by
  apply Fin.ext
  rw [val_yField, toNat_formatXYN]; have := n.isLt; have := x.isLt; have := y.isLt; omega

@[simp] theorem nField_formatXYN (op : BitVec 4) (x y : RegIdx) (n : BitVec 4) : nField (formatXYN op x y n) = n := by
  apply BitVec.eq_of_toNat_eq
  rw [toNat_nField, toNat_formatXYN]; have := n.isLt; omega

/-- A word is its two bytes, high byte first (20_memory.md R62). -/
theorem wordOfBytes_extract (w : Word) : wordOfBytes (w.extractLsb' 8 8) (w.extractLsb' 0 8) = w := by
  apply BitVec.eq_of_toNat_eq
  have := w.isLt
  rw [wordOfBytes, toNat_append_eq, BitVec.extractLsb'_toNat, BitVec.extractLsb'_toNat, Nat.shiftRight_eq_div_pow]
  simp; omega

/-- Every word of the six formats, back from its fields. -/
theorem formatNNN_fields (w : Word) : formatNNN (opField w) (nnnField w) = w := by
  apply BitVec.eq_of_toNat_eq
  rw [toNat_formatNNN, toNat_opField, toNat_nnnField]; omega

theorem formatXNN_fields (w : Word) : formatXNN (opField w) (xField w) (nnField w) = w := by
  apply BitVec.eq_of_toNat_eq
  rw [toNat_formatXNN, toNat_opField, val_xField, toNat_nnField]; omega

theorem formatXYN_fields (w : Word) : formatXYN (opField w) (xField w) (yField w) (nField w) = w := by
  apply BitVec.eq_of_toNat_eq
  rw [toNat_formatXYN, toNat_opField, val_xField, val_yField, toNat_nField]; omega

end Sys2Proof
end

