-- ==== Sys2Proof/Laws/Memory.lean ====
section
/-! SUPPORT. Memory: a read after a write (of any listing), that every write keeps the canonical form, and that memories
in canonical form which read alike are equal. -/

namespace Sys2Proof.Machine

@[simp] theorem memSize_val : Config.memSize = 4096 := rfl

/-! ### Reads after writes -/

theorem memGet_memErase (m : Memory) (x y : Nat) :
    memGet (memErase m x) y = if y = x then 0 else memGet m y := by
  induction m with
  | nil => simp [memErase, memGet]
  | cons c m ih =>
    obtain ⟨a, b⟩ := c
    simp only [memErase] at ih
    by_cases ha : a = x
    · subst ha
      by_cases hy : y = a
      · subst hy; simpa [memErase] using ih
      · simpa [memErase, memGet, hy] using ih
    · by_cases hy : y = a
      · subst hy; simp [memErase, memGet, ha]
      · simp [memErase, memGet, ih, ha, hy]

theorem memGet_memInsert (m : Memory) (x y : Nat) (b : Byte) (h : x ∉ m.map Prod.fst) :
    memGet (memInsert m x b) y = if y = x then b else memGet m y := by
  induction m with
  | nil => simp [memInsert, memGet]
  | cons c m ih =>
    obtain ⟨a, d⟩ := c
    simp only [List.map_cons, List.mem_cons, not_or] at h
    unfold memInsert
    by_cases hxa : x < a
    · rw [if_pos hxa]; rfl
    · rw [if_neg hxa]
      simp only [memGet, ih h.2]
      by_cases hya : y = a
      · subst hya; simp [Ne.symm h.1]
      · simp [hya]

theorem notMem_memErase (m : Memory) (x : Nat) : x ∉ (memErase m x).map Prod.fst := by
  simp [memErase]

/-- A byte read after a byte written. -/
theorem memGet_memSet (m : Memory) (x y : Nat) (b : Byte) :
    memGet (memSet m x b) y = if y = x then b else memGet m y := by
  unfold memSet
  by_cases hb : b = 0
  · rw [if_pos hb, memGet_memErase, hb]
  · rw [if_neg hb, memGet_memInsert _ _ _ _ (notMem_memErase m x), memGet_memErase]
    by_cases hy : y = x <;> simp [hy]

/-- A byte outside the bytes stored reads as before. -/
theorem memGet_storeBytes_outside (m : Memory) (a : Nat) (bs : List Byte) {y : Nat}
    (h : y < a ∨ a + bs.length ≤ y) : memGet (storeBytes m a bs) y = memGet m y := by
  induction bs generalizing m a with
  | nil => rfl
  | cons b bs ih =>
    simp only [List.length_cons] at h
    rw [storeBytes, ih _ _ (by omega), memGet_memSet, if_neg (by omega)]

/-- A byte stored reads back. -/
theorem memGet_storeBytes_inside (m : Memory) (a : Nat) (bs : List Byte) {k : Nat} (h : k < bs.length) :
    memGet (storeBytes m a bs) (a + k) = bs[k] := by
  induction bs generalizing m a k with
  | nil => simp at h
  | cons b bs ih =>
    cases k with
    | zero => rw [storeBytes, memGet_storeBytes_outside _ _ _ (by omega), memGet_memSet]; simp
    | succ k =>
      have := ih (memSet m a b) (a + 1) (k := k) (by simpa using h)
      rw [storeBytes, show a + (k + 1) = a + 1 + k by omega, this]; simp

@[simp] theorem length_loadBytes (m : Memory) (a n : Nat) : (loadBytes m a n).length = n := by simp [loadBytes]

@[simp] theorem getElem_loadBytes (m : Memory) (a n k : Nat) (h : k < (loadBytes m a n).length) :
    (loadBytes m a n)[k] = memGet m (a + k) := by simp [loadBytes]

/-! ### The canonical form -/

/-- An address below the first listed one reads as 0. -/
theorem memGet_below {lo : Nat} {m : Memory} (hm : Memory.wfFrom lo m = true) {x : Nat} (hx : x < lo) :
    memGet m x = 0 := by
  induction m generalizing lo with
  | nil => rfl
  | cons c m ih =>
    obtain ⟨a, b⟩ := c
    simp only [Memory.wfFrom, Bool.and_eq_true, decide_eq_true_eq] at hm
    have : x ≠ a := by omega
    simp [memGet, this, ih hm.2 (by omega)]

theorem wfFrom_mono {lo lo' : Nat} {m : Memory} (hm : Memory.wfFrom lo m = true) (h : lo' ≤ lo) :
    Memory.wfFrom lo' m = true := by
  cases m with
  | nil => rfl
  | cons c m =>
    simp only [Memory.wfFrom, Bool.and_eq_true, decide_eq_true_eq] at hm ⊢
    exact ⟨⟨⟨by omega, hm.1.1.2⟩, hm.1.2⟩, hm.2⟩

theorem wfFrom_memErase {lo : Nat} {m : Memory} (hm : Memory.wfFrom lo m = true) (x : Nat) :
    Memory.wfFrom lo (memErase m x) = true := by
  induction m generalizing lo with
  | nil => rfl
  | cons c m ih =>
    obtain ⟨a, d⟩ := c
    simp only [Memory.wfFrom, Bool.and_eq_true, decide_eq_true_eq] at hm
    have ih' := ih hm.2
    simp only [memErase] at ih' ⊢
    by_cases ha : a = x
    · simpa [ha] using wfFrom_mono ih' (by omega)
    · rw [List.filter_cons_of_pos (by simpa using ha)]
      simp only [Memory.wfFrom, Bool.and_eq_true, decide_eq_true_eq]
      exact ⟨hm.1, ih'⟩

theorem wfFrom_memInsert {lo : Nat} {m : Memory} (hm : Memory.wfFrom lo m = true) {x : Nat} {b : Byte}
    (h : x ∉ m.map Prod.fst) (hlo : lo ≤ x) (hx : x < 4096) (hb : b ≠ 0) :
    Memory.wfFrom lo (memInsert m x b) = true := by
  induction m generalizing lo with
  | nil => simpa [memInsert, Memory.wfFrom, hlo, hx] using hb
  | cons c m ih =>
    obtain ⟨a, d⟩ := c
    simp only [Memory.wfFrom, Bool.and_eq_true, decide_eq_true_eq] at hm
    simp only [List.map_cons, List.mem_cons, not_or] at h
    unfold memInsert
    by_cases hxa : x < a
    · simp only [hxa, if_true, Memory.wfFrom, Bool.and_eq_true, decide_eq_true_eq]
      exact ⟨⟨⟨hlo, by simpa using hx⟩, by simpa using hb⟩, ⟨⟨by omega, hm.1.1.2⟩, hm.1.2⟩, hm.2⟩
    · simp only [hxa, if_false, Memory.wfFrom, Bool.and_eq_true, decide_eq_true_eq]
      exact ⟨hm.1, ih hm.2 h.2 (by have := h.1; omega)⟩

/-- A byte written inside the memory keeps the canonical form. -/
theorem wf_memSet {m : Memory} (hm : m.wf = true) {x : Nat} (b : Byte) (hx : x < 4096) :
    Memory.wf (memSet m x b) = true := by
  unfold memSet Memory.wf
  by_cases hb : b = 0
  · rw [if_pos hb]; exact wfFrom_memErase hm x
  · rw [if_neg hb]
    exact wfFrom_memInsert (wfFrom_memErase hm x) (notMem_memErase m x) (Nat.zero_le x) hx hb

/-- Successive bytes written inside the memory keep the canonical form. -/
theorem wf_storeBytes {m : Memory} (hm : m.wf = true) (a : Nat) (bs : List Byte) (h : a + bs.length ≤ 4096) :
    Memory.wf (storeBytes m a bs) = true := by
  induction bs generalizing m a with
  | nil => exact hm
  | cons b bs ih =>
    simp only [List.length_cons] at h
    exact ih (wf_memSet hm b (by omega)) (a + 1) (by omega)

/-- An address outside the memory reads as 0. -/
theorem memGet_outside {lo : Nat} {m : Memory} (hm : Memory.wfFrom lo m = true) {x : Nat} (hx : 4096 ≤ x) :
    memGet m x = 0 := by
  induction m generalizing lo with
  | nil => rfl
  | cons c m ih =>
    obtain ⟨a, b⟩ := c
    simp only [Memory.wfFrom, Bool.and_eq_true, decide_eq_true_eq] at hm
    have : a < 4096 := hm.1.1.2
    have : x ≠ a := by omega
    simp [memGet, this, ih hm.2]

theorem ext_wfFrom {lo : Nat} {m m' : Memory} (hm : Memory.wfFrom lo m = true) (hm' : Memory.wfFrom lo m' = true)
    (h : ∀ a, memGet m a = memGet m' a) : m = m' := by
  induction m generalizing lo m' with
  | nil =>
    cases m' with
    | nil => rfl
    | cons c m' =>
      obtain ⟨a, b⟩ := c
      simp only [Memory.wfFrom, Bool.and_eq_true] at hm'
      have := h a
      simp [memGet] at this
      simp [← this] at hm'
  | cons c m ih =>
    obtain ⟨a, b⟩ := c
    have hmc := hm
    simp only [Memory.wfFrom, Bool.and_eq_true, decide_eq_true_eq] at hmc
    have hb : b ≠ 0 := by simpa using hmc.1.2
    cases m' with
    | nil => exact absurd (by simpa [memGet] using h a) hb
    | cons c' m' =>
      obtain ⟨a', b'⟩ := c'
      have hmc' := hm'
      simp only [Memory.wfFrom, Bool.and_eq_true, decide_eq_true_eq] at hmc'
      have hb' : b' ≠ 0 := by simpa using hmc'.1.2
      have haa : a = a' := by
        rcases Nat.lt_trichotomy a a' with hlt | heq | hgt
        · have := h a
          rw [show memGet ((a', b') :: m') a = 0 by
            simp [memGet, Nat.ne_of_lt hlt, memGet_below hmc'.2 (show a < a' + 1 by omega)]] at this
          exact absurd (by simpa [memGet] using this) hb
        · exact heq
        · have := h a'
          rw [show memGet ((a, b) :: m) a' = 0 by
            simp [memGet, Nat.ne_of_lt hgt, memGet_below hmc.2 (show a' < a + 1 by omega)]] at this
          exact absurd (by simpa [memGet] using this.symm) hb'
      subst haa
      have hbb : b = b' := by simpa [memGet] using h a
      subst hbb
      have : m = m' := by
        refine ih hmc.2 hmc'.2 fun x => ?_
        by_cases hx : x = a
        · subst hx
          rw [memGet_below hmc.2 (by omega), memGet_below hmc'.2 (by omega)]
        · simpa [memGet, hx] using h x
      rw [this]

/-- Memories in canonical form that read alike are equal: equal memories are equal data. -/
theorem memory_ext {m m' : Memory} (hm : m.wf = true) (hm' : m'.wf = true) (h : ∀ a, memGet m a = memGet m' a) :
    m = m' := ext_wfFrom hm hm' h

/-- Reset memory is in canonical form. -/
theorem reset_mem_wf : State.reset.mem.wf = true := rfl

end Sys2Proof.Machine
end

