-- ==== Sys2Proof/Laws/State.lean ====
section
/-! SUPPORT. Each field after each named update of the state, by `rfl`, so that no proof unfolds a record update. -/

namespace Sys2Proof.Machine

@[simp] theorem setReg_mem (s : State) (x : RegIdx) (b : Byte) : (s.setReg x b).mem = s.mem := rfl
@[simp] theorem setReg_i (s : State) (x : RegIdx) (b : Byte) : (s.setReg x b).i = s.i := rfl
@[simp] theorem setReg_pc (s : State) (x : RegIdx) (b : Byte) : (s.setReg x b).pc = s.pc := rfl
@[simp] theorem setReg_stack (s : State) (x : RegIdx) (b : Byte) : (s.setReg x b).stack = s.stack := rfl
@[simp] theorem setReg_sp (s : State) (x : RegIdx) (b : Byte) : (s.setReg x b).sp = s.sp := rfl
@[simp] theorem setReg_dt (s : State) (x : RegIdx) (b : Byte) : (s.setReg x b).dt = s.dt := rfl
@[simp] theorem setReg_st (s : State) (x : RegIdx) (b : Byte) : (s.setReg x b).st = s.st := rfl
@[simp] theorem setReg_key (s : State) (x : RegIdx) (b : Byte) : (s.setReg x b).key = s.key := rfl
@[simp] theorem setReg_wait (s : State) (x : RegIdx) (b : Byte) : (s.setReg x b).wait = s.wait := rfl
@[simp] theorem setReg_kprev (s : State) (x : RegIdx) (b : Byte) : (s.setReg x b).kprev = s.kprev := rfl
@[simp] theorem setReg_fb (s : State) (x : RegIdx) (b : Byte) : (s.setReg x b).fb = s.fb := rfl
@[simp] theorem setReg_draws (s : State) (x : RegIdx) (b : Byte) : (s.setReg x b).draws = s.draws := rfl
@[simp] theorem setReg_pending (s : State) (x : RegIdx) (b : Byte) : (s.setReg x b).pending = s.pending := rfl

@[simp] theorem advance_mem (s : State) : s.advance.mem = s.mem := rfl
@[simp] theorem advance_v (s : State) : s.advance.v = s.v := rfl
@[simp] theorem advance_i (s : State) : s.advance.i = s.i := rfl
@[simp] theorem advance_stack (s : State) : s.advance.stack = s.stack := rfl
@[simp] theorem advance_sp (s : State) : s.advance.sp = s.sp := rfl
@[simp] theorem advance_dt (s : State) : s.advance.dt = s.dt := rfl
@[simp] theorem advance_st (s : State) : s.advance.st = s.st := rfl
@[simp] theorem advance_key (s : State) : s.advance.key = s.key := rfl
@[simp] theorem advance_wait (s : State) : s.advance.wait = s.wait := rfl
@[simp] theorem advance_kprev (s : State) : s.advance.kprev = s.kprev := rfl
@[simp] theorem advance_fb (s : State) : s.advance.fb = s.fb := rfl
@[simp] theorem advance_draws (s : State) : s.advance.draws = s.draws := rfl
@[simp] theorem advance_pending (s : State) : s.advance.pending = s.pending := rfl

@[simp] theorem skipIf_mem (s : State) (c : Bool) : (s.skipIf c).mem = s.mem := by cases c <;> rfl
@[simp] theorem skipIf_v (s : State) (c : Bool) : (s.skipIf c).v = s.v := by cases c <;> rfl
@[simp] theorem skipIf_i (s : State) (c : Bool) : (s.skipIf c).i = s.i := by cases c <;> rfl
@[simp] theorem skipIf_stack (s : State) (c : Bool) : (s.skipIf c).stack = s.stack := by cases c <;> rfl
@[simp] theorem skipIf_sp (s : State) (c : Bool) : (s.skipIf c).sp = s.sp := by cases c <;> rfl
@[simp] theorem skipIf_dt (s : State) (c : Bool) : (s.skipIf c).dt = s.dt := by cases c <;> rfl
@[simp] theorem skipIf_st (s : State) (c : Bool) : (s.skipIf c).st = s.st := by cases c <;> rfl
@[simp] theorem skipIf_key (s : State) (c : Bool) : (s.skipIf c).key = s.key := by cases c <;> rfl
@[simp] theorem skipIf_wait (s : State) (c : Bool) : (s.skipIf c).wait = s.wait := by cases c <;> rfl
@[simp] theorem skipIf_kprev (s : State) (c : Bool) : (s.skipIf c).kprev = s.kprev := by cases c <;> rfl
@[simp] theorem skipIf_fb (s : State) (c : Bool) : (s.skipIf c).fb = s.fb := by cases c <;> rfl
@[simp] theorem skipIf_draws (s : State) (c : Bool) : (s.skipIf c).draws = s.draws := by cases c <;> rfl
@[simp] theorem skipIf_pending (s : State) (c : Bool) : (s.skipIf c).pending = s.pending := by cases c <;> rfl

@[simp] theorem setRegFlag_mem (s : State) (x : RegIdx) (b : Byte) (f : Bool) : (s.setRegFlag x b f).mem = s.mem := rfl
@[simp] theorem setRegFlag_i (s : State) (x : RegIdx) (b : Byte) (f : Bool) : (s.setRegFlag x b f).i = s.i := rfl
@[simp] theorem setRegFlag_pc (s : State) (x : RegIdx) (b : Byte) (f : Bool) : (s.setRegFlag x b f).pc = s.pc := rfl
@[simp] theorem setRegFlag_stack (s : State) (x : RegIdx) (b : Byte) (f : Bool) : (s.setRegFlag x b f).stack = s.stack := rfl
@[simp] theorem setRegFlag_sp (s : State) (x : RegIdx) (b : Byte) (f : Bool) : (s.setRegFlag x b f).sp = s.sp := rfl
@[simp] theorem setRegFlag_dt (s : State) (x : RegIdx) (b : Byte) (f : Bool) : (s.setRegFlag x b f).dt = s.dt := rfl
@[simp] theorem setRegFlag_st (s : State) (x : RegIdx) (b : Byte) (f : Bool) : (s.setRegFlag x b f).st = s.st := rfl
@[simp] theorem setRegFlag_key (s : State) (x : RegIdx) (b : Byte) (f : Bool) : (s.setRegFlag x b f).key = s.key := rfl
@[simp] theorem setRegFlag_wait (s : State) (x : RegIdx) (b : Byte) (f : Bool) : (s.setRegFlag x b f).wait = s.wait := rfl
@[simp] theorem setRegFlag_kprev (s : State) (x : RegIdx) (b : Byte) (f : Bool) : (s.setRegFlag x b f).kprev = s.kprev := rfl
@[simp] theorem setRegFlag_fb (s : State) (x : RegIdx) (b : Byte) (f : Bool) : (s.setRegFlag x b f).fb = s.fb := rfl
@[simp] theorem setRegFlag_draws (s : State) (x : RegIdx) (b : Byte) (f : Bool) : (s.setRegFlag x b f).draws = s.draws := rfl
@[simp] theorem setRegFlag_pending (s : State) (x : RegIdx) (b : Byte) (f : Bool) : (s.setRegFlag x b f).pending = s.pending := rfl

@[simp] theorem storeAtI_v (s : State) (bs : List Byte) : (s.storeAtI bs).v = s.v := rfl
@[simp] theorem storeAtI_i (s : State) (bs : List Byte) : (s.storeAtI bs).i = s.i := rfl
@[simp] theorem storeAtI_pc (s : State) (bs : List Byte) : (s.storeAtI bs).pc = s.pc := rfl
@[simp] theorem storeAtI_stack (s : State) (bs : List Byte) : (s.storeAtI bs).stack = s.stack := rfl
@[simp] theorem storeAtI_sp (s : State) (bs : List Byte) : (s.storeAtI bs).sp = s.sp := rfl
@[simp] theorem storeAtI_dt (s : State) (bs : List Byte) : (s.storeAtI bs).dt = s.dt := rfl
@[simp] theorem storeAtI_st (s : State) (bs : List Byte) : (s.storeAtI bs).st = s.st := rfl
@[simp] theorem storeAtI_key (s : State) (bs : List Byte) : (s.storeAtI bs).key = s.key := rfl
@[simp] theorem storeAtI_wait (s : State) (bs : List Byte) : (s.storeAtI bs).wait = s.wait := rfl
@[simp] theorem storeAtI_kprev (s : State) (bs : List Byte) : (s.storeAtI bs).kprev = s.kprev := rfl
@[simp] theorem storeAtI_fb (s : State) (bs : List Byte) : (s.storeAtI bs).fb = s.fb := rfl
@[simp] theorem storeAtI_draws (s : State) (bs : List Byte) : (s.storeAtI bs).draws = s.draws := rfl
@[simp] theorem storeAtI_pending (s : State) (bs : List Byte) : (s.storeAtI bs).pending = s.pending := rfl

@[simp] theorem loadBlock_mem (s : State) (x : RegIdx) : (s.loadBlock x).mem = s.mem := rfl
@[simp] theorem loadBlock_i (s : State) (x : RegIdx) : (s.loadBlock x).i = s.i := rfl
@[simp] theorem loadBlock_pc (s : State) (x : RegIdx) : (s.loadBlock x).pc = s.pc := rfl
@[simp] theorem loadBlock_stack (s : State) (x : RegIdx) : (s.loadBlock x).stack = s.stack := rfl
@[simp] theorem loadBlock_sp (s : State) (x : RegIdx) : (s.loadBlock x).sp = s.sp := rfl
@[simp] theorem loadBlock_dt (s : State) (x : RegIdx) : (s.loadBlock x).dt = s.dt := rfl
@[simp] theorem loadBlock_st (s : State) (x : RegIdx) : (s.loadBlock x).st = s.st := rfl
@[simp] theorem loadBlock_key (s : State) (x : RegIdx) : (s.loadBlock x).key = s.key := rfl
@[simp] theorem loadBlock_wait (s : State) (x : RegIdx) : (s.loadBlock x).wait = s.wait := rfl
@[simp] theorem loadBlock_kprev (s : State) (x : RegIdx) : (s.loadBlock x).kprev = s.kprev := rfl
@[simp] theorem loadBlock_fb (s : State) (x : RegIdx) : (s.loadBlock x).fb = s.fb := rfl
@[simp] theorem loadBlock_draws (s : State) (x : RegIdx) : (s.loadBlock x).draws = s.draws := rfl
@[simp] theorem loadBlock_pending (s : State) (x : RegIdx) : (s.loadBlock x).pending = s.pending := rfl

@[simp] theorem drawByte_mem (s : State) : (drawByte s).2.mem = s.mem := rfl
@[simp] theorem drawByte_v (s : State) : (drawByte s).2.v = s.v := rfl
@[simp] theorem drawByte_i (s : State) : (drawByte s).2.i = s.i := rfl
@[simp] theorem drawByte_pc (s : State) : (drawByte s).2.pc = s.pc := rfl
@[simp] theorem drawByte_stack (s : State) : (drawByte s).2.stack = s.stack := rfl
@[simp] theorem drawByte_sp (s : State) : (drawByte s).2.sp = s.sp := rfl
@[simp] theorem drawByte_dt (s : State) : (drawByte s).2.dt = s.dt := rfl
@[simp] theorem drawByte_st (s : State) : (drawByte s).2.st = s.st := rfl
@[simp] theorem drawByte_key (s : State) : (drawByte s).2.key = s.key := rfl
@[simp] theorem drawByte_wait (s : State) : (drawByte s).2.wait = s.wait := rfl
@[simp] theorem drawByte_kprev (s : State) : (drawByte s).2.kprev = s.kprev := rfl
@[simp] theorem drawByte_fb (s : State) : (drawByte s).2.fb = s.fb := rfl
@[simp] theorem drawByte_pending (s : State) : (drawByte s).2.pending = s.pending := rfl
@[simp] theorem drawByte_draws (s : State) : (drawByte s).2.draws = s.draws + 1 := rfl
@[simp] theorem drawByte_byte (s : State) : (drawByte s).1 = Config.randomByte s.draws := rfl

@[simp] theorem advance_pc (s : State) : s.advance.pc = s.pc + 2 := rfl
@[simp] theorem skipIf_pc (s : State) (c : Bool) : (s.skipIf c).pc = if c then s.pc + 2 else s.pc := by
  cases c <;> rfl
@[simp] theorem storeAtI_mem (s : State) (bs : List Byte) :
    (s.storeAtI bs).mem = storeBytes s.mem s.i.toNat bs := rfl

/-- A read after a write of a general register. -/
theorem reg_setReg (s : State) (x k : RegIdx) (b : Byte) :
    (s.setReg x b).reg k = if x = k then b else s.reg k := by
  simp [State.reg, State.setReg, Vector.getElem_set, Fin.ext_iff]
@[simp] theorem reg_setReg_same (s : State) (x : RegIdx) (b : Byte) : (s.setReg x b).reg x = b := by
  simp [reg_setReg]
theorem reg_setReg_other (s : State) {x k : RegIdx} (b : Byte) (h : k ≠ x) : (s.setReg x b).reg k = s.reg k := by
  simp [reg_setReg, Ne.symm h]
@[simp] theorem reg_advance (s : State) (k : RegIdx) : s.advance.reg k = s.reg k := rfl
@[simp] theorem reg_skipIf (s : State) (c : Bool) (k : RegIdx) : (s.skipIf c).reg k = s.reg k := by
  cases c <;> rfl
@[simp] theorem reg_drawByte (s : State) (k : RegIdx) : (drawByte s).2.reg k = s.reg k := rfl
@[simp] theorem reg_storeAtI (s : State) (bs : List Byte) (k : RegIdx) : (s.storeAtI bs).reg k = s.reg k := rfl
/-- The flag is written last: it wins over a result in `VF` (41_alu.md R140). -/
@[simp] theorem reg_setRegFlag_vF (s : State) (x : RegIdx) (b : Byte) (f : Bool) :
    (s.setRegFlag x b f).reg vF = flagByte f := by
  simp [State.setRegFlag]
/-- The result of a flag-producing instruction, where the destination is not `VF`. -/
theorem reg_setRegFlag_dest (s : State) {x : RegIdx} (b : Byte) (f : Bool) (h : x ≠ vF) :
    (s.setRegFlag x b f).reg x = b := by
  rw [State.setRegFlag, reg_setReg_other _ _ h, reg_setReg_same]
theorem reg_setRegFlag_other (s : State) {x k : RegIdx} (b : Byte) (f : Bool) (hx : k ≠ x) (hF : k ≠ vF) :
    (s.setRegFlag x b f).reg k = s.reg k := by
  rw [State.setRegFlag, reg_setReg_other _ _ hF, reg_setReg_other _ _ hx]
/-- The registers after a block load (42_index_memory.md R176). -/
theorem reg_loadBlock (s : State) (x k : RegIdx) :
    (s.loadBlock x).reg k = if k.val ≤ x.val then memGet s.mem (s.i.toNat + k.val) else s.reg k := by
  simp [State.reg, State.loadBlock]
/-- Two register files that read alike are equal. -/
theorem v_ext {s t : State} (h : ∀ k, t.reg k = s.reg k) : t.v = s.v := by
  apply Vector.ext
  intro j hj
  exact h ⟨j, hj⟩

end Sys2Proof.Machine
end

