-- ==== Sys2Proof/Laws/Ops.lean ====
section
/-! SUPPORT. One lemma per shared operation: everything it can do. -/

namespace Sys2Proof.Machine

/-! ### Accesses at `I` -/

/-- An access at `I` either raises `OutOfBounds(4096)` or completes; never both. -/
theorem withAccess_cases (s : State) (count : Nat) (t : State) :
    (0 < count ∧ 4096 < s.i.toNat + count ∧ withAccess s count t = .fault (.outOfBounds 0x1000)) ∨
    ((count = 0 ∨ s.i.toNat + count ≤ 4096) ∧ withAccess s count t = .next t) := by
  unfold withAccess leavesMemory
  by_cases h0 : 0 < count <;> by_cases h1 : 4096 < s.i.toNat + count
  · exact .inl ⟨h0, h1, by simp [h0, h1, raise]⟩
  · exact .inr ⟨.inr (by omega), by simp [h1]⟩
  · exact .inr ⟨.inl (by omega), by simp [h0]⟩
  · exact .inr ⟨.inl (by omega), by simp [h0]⟩

theorem withAccess_next (s : State) (count : Nat) (t : State) (h : count = 0 ∨ s.i.toNat + count ≤ 4096) :
    withAccess s count t = .next t := by
  rcases withAccess_cases s count t with ⟨h0, h1, _⟩ | ⟨_, e⟩
  · omega
  · exact e

theorem withAccess_fault (s : State) (count : Nat) (t : State) (h0 : 0 < count) (h1 : 4096 < s.i.toNat + count) :
    withAccess s count t = .fault (.outOfBounds 0x1000) := by
  rcases withAccess_cases s count t with ⟨_, _, e⟩ | ⟨h, _⟩
  · exact e
  · omega

@[simp] theorem length_bcdDigits (b : Byte) : (bcdDigits b).length = 3 := rfl

@[simp] theorem length_regBlock (s : State) (x : RegIdx) : (s.regBlock x).length = x.val + 1 := by
  simp [State.regBlock]

@[simp] theorem getElem_regBlock (s : State) (x : RegIdx) (k : Nat) (h : k < (s.regBlock x).length) :
    (s.regBlock x)[k] = s.reg ⟨k, by simp at h; omega⟩ := by
  simp [State.regBlock, State.reg]

/-- A byte of a block of registers stored at `I` (42_index_memory.md R175). -/
theorem memGet_storeRegBlock (s : State) (x k : RegIdx) (h : k.val ≤ x.val) :
    memGet (s.storeAtI (s.regBlock x)).mem (s.i.toNat + k.val) = s.reg k := by
  rw [storeAtI_mem, memGet_storeBytes_inside _ _ _ (by simp; omega), getElem_regBlock]

/-! ### The call stack -/

/-- A push completes exactly while fewer than 16 entries are in use (10_state.md R26). -/
theorem pushThen_next (s : State) (value : Word) (f : State → State) (h : s.sp.val < 16) :
    pushThen s value f =
      .next (f { s with stack := s.stack.set s.sp.val value, sp := ⟨s.sp.val + 1, by omega⟩ }) := by
  simp [pushThen, h]

theorem pushThen_fault (s : State) (value : Word) (f : State → State) (h : s.sp = 16) :
    pushThen s value f = .fault .stackOverflow := by
  simp [pushThen, h, raise]

/-- A pop completes exactly while an entry is in use (10_state.md R26). -/
theorem popThen_next (s : State) (f : Word → State → State) (h : 0 < s.sp.val) :
    popThen s f = .next (f (s.stack[s.sp.val - 1]'(by omega)) { s with sp := ⟨s.sp.val - 1, by omega⟩ }) := by
  simp only [popThen, dif_pos h]

theorem popThen_fault (s : State) (f : Word → State → State) (h : s.sp = 0) :
    popThen s f = .fault .stackUnderflow := by
  simp [popThen, h, raise]

/-! ### Fetch -/

theorem fetchBytes_inside (s : State) (h : s.pc.toNat < 4095) :
    fetchBytes s = [memGet s.mem s.pc.toNat, memGet s.mem (s.pc.toNat + 1)] := by
  unfold fetchBytes; rw [if_neg (by simp; omega)]

theorem fetchBytes_outside (s : State) (h : 4095 ≤ s.pc.toNat) : fetchBytes s = [] := by
  unfold fetchBytes; rw [if_pos (by simpa using h)]

/-- What an instruction cycle does, by the fetch and the decode (45_host_operations.md R223). -/
theorem runInstruction_cases (s : State) :
    (4095 ≤ s.pc.toNat ∧ decodeBytes (fetchBytes s) = .truncated ∧
      runInstruction s = .fault (.outOfBounds s.pc)) ∨
    (s.pc.toNat < 4095 ∧ ∃ w, w = wordOfBytes (memGet s.mem s.pc.toNat) (memGet s.mem (s.pc.toNat + 1)) ∧
      ((decode w = none ∧ decodeBytes (fetchBytes s) = .unknownOpcode w ∧
          runInstruction s = .fault (.unknownOpcode w)) ∨
       ∃ i, decode w = some i ∧ decodeBytes (fetchBytes s) = .instr i ∧ runInstruction s = exec i s.advance)) := by
  by_cases h : s.pc.toNat < 4095
  · refine .inr ⟨h, _, rfl, ?_⟩
    unfold runInstruction
    rw [fetchBytes_inside s h]
    cases hd : decode (wordOfBytes (memGet s.mem s.pc.toNat) (memGet s.mem (s.pc.toNat + 1))) with
    | none => exact .inl ⟨rfl, by simp [decodeBytes, hd], by simp [decodeBytes, hd, raise]⟩
    | some i => exact .inr ⟨i, rfl, by simp [decodeBytes, hd], by simp [decodeBytes, hd]⟩
  · refine .inl ⟨by omega, ?_, ?_⟩
    · rw [fetchBytes_outside s (by omega)]; rfl
    · unfold runInstruction; rw [fetchBytes_outside s (by omega)]; rfl

theorem cycle_waiting {s : State} {x : RegIdx} (h : s.wait = some x) : cycle s = .next (pollKeys x s) := by
  simp [cycle, h]

theorem cycle_running {s : State} (h : s.wait = none) : cycle s = runInstruction s := by
  simp [cycle, h]

/-! ### Key-wait -/

theorem firstDown_none {s : State} : s.firstDown = none ↔ ∀ k, s.wentDown k = false := by
  simp [State.firstDown]

/-- `min(T)` is in `T`, and no lower key is (44_keypad_timers.md R204). -/
theorem firstDown_some {s : State} {k : KeyIdx} :
    s.firstDown = some k ↔ s.wentDown k = true ∧ ∀ j, j < k → s.wentDown j = false := by
  unfold State.firstDown
  generalize s.wentDown = p
  constructor
  · intro h
    refine ⟨List.find?_some h, fun j hj => ?_⟩
    obtain ⟨_, as, bs, hl, ha⟩ := List.find?_eq_some_iff_append.mp h
    have hs : (as ++ k :: bs).Pairwise (· < ·) := hl ▸ List.pairwise_lt_finRange 16
    have hm : j ∈ as ++ k :: bs := hl ▸ List.mem_finRange j
    rcases List.mem_append.mp hm with h' | h'
    · simpa using ha j h'
    · rcases List.mem_cons.mp h' with rfl | h''
      · exact absurd hj (lt_irrefl _)
      · have := (List.pairwise_cons.mp (List.pairwise_append.mp hs).2.1).1 j h''
        exact absurd (lt_trans hj this) (lt_irrefl _)
  · rintro ⟨hk, hlow⟩
    cases h : (List.finRange 16).find? p with
    | none =>
      have := List.find?_eq_none.mp h k (List.mem_finRange k)
      simp [hk] at this
    | some j =>
      obtain ⟨_, as, bs, hl, ha⟩ := List.find?_eq_some_iff_append.mp h
      have hs : (as ++ j :: bs).Pairwise (· < ·) := hl ▸ List.pairwise_lt_finRange 16
      have hm : k ∈ as ++ j :: bs := hl ▸ List.mem_finRange k
      have hj : p j = true := List.find?_some h
      rcases List.mem_append.mp hm with h' | h'
      · simpa [hk] using ha k h'
      · rcases List.mem_cons.mp h' with rfl | h''
        · rfl
        · have := (List.pairwise_cons.mp (List.pairwise_append.mp hs).2.1).1 k h''
          simp [hlow j this] at hj

/-! ### The framebuffer -/

theorem pixel_setPixel (g : Grid) (r r' : Fin 32) (c c' : Fin 64) (b : Bool) :
    pixel (setPixel g r c b) r' c' = if r' = r ∧ c' = c then b else pixel g r' c' := by
  unfold pixel setPixel
  by_cases hr : r' = r
  · subst hr
    by_cases hc : c' = c
    · subst hc; simp
    · have : c.val ≠ c'.val := fun h => hc (Fin.ext h.symm)
      simp [this, hc]
  · have : r.val ≠ r'.val := fun h => hr (Fin.ext h.symm)
    simp [this, hr]

/-- Grids with the same pixels are equal. -/
theorem grid_ext {g h : Grid} (e : ∀ r c, pixel g r c = pixel h r c) : g = h := by
  apply Vector.ext
  intro r hr
  apply Vector.ext
  intro c hc
  exact e ⟨r, hr⟩ ⟨c, hc⟩

@[simp] theorem pixel_clearGrid (r : Fin 32) (c : Fin 64) : pixel clearGrid r c = false := by
  simp [pixel, clearGrid]

/-- A sprite row's bits `0 .. n-1` (from the left) that fall on a column. -/
def rowHits (x0 : Nat) (byte : Byte) (n : Nat) (c : Fin 64) : Bool :=
  (List.range n).any fun b => decide (c = wrapCol (x0 + b)) && byte.getLsbD (7 - b)

/-- The bits of a sprite that fall on a pixel, its first row at row `r`. -/
def spriteHits (x0 : Nat) : Nat → List Byte → Fin 32 → Fin 64 → Bool
  | _, [], _, _ => false
  | r, byte :: rest, r', c => (decide (r' = wrapRow r) && rowHits x0 byte 8 c) || spriteHits x0 (r + 1) rest r' c

theorem rowHits_succ (x0 : Nat) (byte : Byte) (n : Nat) (c : Fin 64) :
    rowHits x0 byte (n + 1) c = (rowHits x0 byte n c || (decide (c = wrapCol (x0 + n)) && byte.getLsbD (7 - n))) := by
  simp [rowHits, List.range_succ]

/-- The columns of the bits of one row are distinct (43_display.md R192 (d)). -/
theorem rowHits_fresh {x0 : Nat} (byte : Byte) {n : Nat} (h : n < 64) : rowHits x0 byte n (wrapCol (x0 + n)) = false := by
  simp only [rowHits, List.any_eq_false, List.mem_range, Bool.and_eq_true, decide_eq_true_eq, not_and, wrapCol, Fin.mk.injEq]
  intro b hb e
  omega

/-- `plotBit`, pixel by pixel. -/
theorem pixel_plotBit (p : Grid × Bool) (r r' : Fin 32) (c c' : Fin 64) (bit : Bool) :
    pixel (plotBit p r c bit).1 r' c' = (pixel p.1 r' c' ^^ (decide (r' = r ∧ c' = c) && bit)) := by
  unfold plotBit
  cases bit
  · simp
  · simp only [if_true, pixel_setPixel]
    by_cases h : r' = r ∧ c' = c
    · obtain ⟨rfl, rfl⟩ := h; simp
    · simp [h]

theorem collision_plotBit (p : Grid × Bool) (r : Fin 32) (c : Fin 64) (bit : Bool) :
    (plotBit p r c bit).2 = (p.2 || (bit && pixel p.1 r c)) := by
  unfold plotBit; cases bit <;> simp

/-- `plotRow` after its first `n` bits: the pixels, and the collision. -/
theorem plotRow_bits (p : Grid × Bool) (x0 r : Nat) (byte : Byte) (n : Nat) (hn : n ≤ 64) :
    let q := (List.range n).foldl (fun q b => plotBit q (wrapRow r) (wrapCol (x0 + b)) (byte.getLsbD (7 - b))) p
    (∀ r' c, pixel q.1 r' c = (pixel p.1 r' c ^^ (decide (r' = wrapRow r) && rowHits x0 byte n c))) ∧
    (q.2 = true ↔ p.2 = true ∨ ∃ c, rowHits x0 byte n c = true ∧ pixel p.1 (wrapRow r) c = true) := by
  induction n with
  | zero => simp [rowHits]
  | succ n ih =>
    obtain ⟨ihp, ihc⟩ := ih (by omega)
    rw [List.range_succ, List.foldl_append, List.foldl_cons, List.foldl_nil]
    generalize (List.range n).foldl _ p = q at ihp ihc
    refine ⟨fun r' c => ?_, ?_⟩
    · rw [pixel_plotBit, ihp, rowHits_succ]
      by_cases hr : r' = wrapRow r
      · by_cases hc : c = wrapCol (x0 + n)
        · subst hr; subst hc
          simp [rowHits_fresh byte (show n < 64 by omega)]
        · simp [hr, hc]
      · simp [hr]
    · rw [collision_plotBit, Bool.or_eq_true, ihc, ihp]
      simp only [rowHits_succ, rowHits_fresh byte (show n < 64 by omega), Bool.and_false, Bool.xor_false,
        Bool.or_eq_true, Bool.and_eq_true, decide_eq_true_eq]
      constructor
      · rintro ((h | ⟨c, h1, h2⟩) | ⟨h1, h2⟩)
        · exact .inl h
        · exact .inr ⟨c, .inl h1, h2⟩
        · exact .inr ⟨_, .inr ⟨rfl, h1⟩, h2⟩
      · rintro (h | ⟨c, h1 | ⟨rfl, h1⟩, h2⟩)
        · exact .inl (.inl h)
        · exact .inl (.inr ⟨c, h1, h2⟩)
        · exact .inr ⟨h1, h2⟩

theorem pixel_plotRow (p : Grid × Bool) (x0 r : Nat) (byte : Byte) (r' : Fin 32) (c : Fin 64) :
    pixel (plotRow p x0 r byte).1 r' c = (pixel p.1 r' c ^^ (decide (r' = wrapRow r) && rowHits x0 byte 8 c)) :=
  (plotRow_bits p x0 r byte 8 (by omega)).1 r' c

theorem collision_plotRow (p : Grid × Bool) (x0 r : Nat) (byte : Byte) :
    (plotRow p x0 r byte).2 = true ↔
      p.2 = true ∨ ∃ c, rowHits x0 byte 8 c = true ∧ pixel p.1 (wrapRow r) c = true :=
  (plotRow_bits p x0 r byte 8 (by omega)).2

/-- The rows of a sprite are distinct: none of the rows below row `r` wraps onto it (43_display.md R192 (d)). -/
theorem spriteHits_fresh (x0 : Nat) (bs : List Byte) (r d : Nat) (hd : 0 < d) (h : d + bs.length ≤ 32) (c : Fin 64) :
    spriteHits x0 (r + d) bs (wrapRow r) c = false := by
  induction bs generalizing d with
  | nil => rfl
  | cons b bs ih =>
    simp only [List.length_cons] at h
    simp only [spriteHits, Bool.or_eq_false_iff, Bool.and_eq_false_iff, decide_eq_false_iff_not]
    refine ⟨.inl ?_, ih (d + 1) (by omega) (by omega)⟩
    simp only [wrapRow, Fin.mk.injEq]; omega

/-- What a sprite does, pixel by pixel, and when it collides (43_display.md R192). -/
theorem plotSprite_spec (bs : List Byte) (p : Grid × Bool) (x0 r : Nat) (h : bs.length ≤ 32) :
    (∀ r' c, pixel (plotSprite p x0 r bs).1 r' c = (pixel p.1 r' c ^^ spriteHits x0 r bs r' c)) ∧
    ((plotSprite p x0 r bs).2 = true ↔
      p.2 = true ∨ ∃ r' c, spriteHits x0 r bs r' c = true ∧ pixel p.1 r' c = true) := by
  induction bs generalizing p r with
  | nil => simp [plotSprite, spriteHits]
  | cons b bs ih =>
    simp only [List.length_cons] at h
    obtain ⟨ihp, ihc⟩ := ih (plotRow p x0 r b) (r + 1) (by omega)
    have fresh : ∀ c, spriteHits x0 (r + 1) bs (wrapRow r) c = false :=
      fun c => spriteHits_fresh x0 bs r 1 (by omega) (by omega) c
    refine ⟨fun r' c => ?_, ?_⟩
    · rw [plotSprite, ihp, pixel_plotRow]
      simp only [spriteHits]
      by_cases hr : r' = wrapRow r
      · subst hr; simp [fresh]
      · simp [hr]
    · rw [plotSprite, ihc, collision_plotRow]
      simp only [spriteHits, pixel_plotRow, Bool.or_eq_true, Bool.and_eq_true, decide_eq_true_eq]
      constructor
      · rintro ((h' | ⟨c, h1, h2⟩) | ⟨r', c, h1, h2⟩)
        · exact .inl h'
        · exact .inr ⟨_, c, .inl ⟨rfl, h1⟩, h2⟩
        · have hr : r' ≠ wrapRow r := fun e => by subst e; simp [fresh] at h1
          exact .inr ⟨r', c, .inr h1, by simpa [hr] using h2⟩
      · rintro (h' | ⟨r', c, ⟨rfl, h1⟩ | h1, h2⟩)
        · exact .inl (.inl h')
        · exact .inl (.inr ⟨c, h1, h2⟩)
        · have hr : r' ≠ wrapRow r := fun e => by subst e; simp [fresh] at h1
          exact .inr ⟨r', c, h1, by simpa [hr] using h2⟩

theorem rowHits_iff (x0 : Nat) (byte : Byte) (c : Fin 64) :
    rowHits x0 byte 8 c = true ↔ ∃ b, b < 8 ∧ c.val = (x0 + b) % 64 ∧ byte.getLsbD (7 - b) = true := by
  simp [rowHits, wrapCol, Fin.ext_iff]

/-- The bits of a sprite on a pixel, written with row and column offsets. -/
theorem spriteHits_iff (x0 r : Nat) (bs : List Byte) (r' : Fin 32) (c : Fin 64) :
    spriteHits x0 r bs r' c = true ↔ ∃ j b, ∃ h : j < bs.length, b < 8 ∧ r'.val = (r + j) % 32 ∧
      c.val = (x0 + b) % 64 ∧ bs[j].getLsbD (7 - b) = true := by
  induction bs generalizing r with
  | nil => simp [spriteHits]
  | cons byte bs ih =>
    simp only [spriteHits, Bool.or_eq_true, Bool.and_eq_true, decide_eq_true_eq, rowHits_iff, ih, wrapRow, Fin.ext_iff]
    constructor
    · rintro (⟨hr, b, hb, hc, hbit⟩ | ⟨j, b, hj, hb, hr, hc, hbit⟩)
      · exact ⟨0, b, by simp, hb, by simpa using hr, hc, by simpa using hbit⟩
      · exact ⟨j + 1, b, by simpa using hj, hb, by rw [hr]; congr 1; omega, hc, by simpa using hbit⟩
    · rintro ⟨j, b, hj, hb, hr, hc, hbit⟩
      cases j with
      | zero => exact .inl ⟨by simpa using hr, b, hb, hc, by simpa using hbit⟩
      | succ j =>
        exact .inr ⟨j, b, by simpa using hj, hb, by rw [hr]; congr 1; omega, hc, by simpa using hbit⟩

end Sys2Proof.Machine
end

