-- ==== Sys2Proof/Laws/HostEvents.lean ====
section
/-! SUPPORT. Each field after each of the host's events and after the key-wait poll, so that no proof unfolds a record
update (nor the font table). -/

namespace Sys2Proof.Machine

@[simp] theorem loadFontTable_v (table : List Byte) (s : State) : (loadFontTable table s).v = s.v := by
  simp only [loadFontTable]
@[simp] theorem loadFontTable_i (table : List Byte) (s : State) : (loadFontTable table s).i = s.i := by
  simp only [loadFontTable]
@[simp] theorem loadFontTable_pc (table : List Byte) (s : State) : (loadFontTable table s).pc = s.pc := by
  simp only [loadFontTable]
@[simp] theorem loadFontTable_stack (table : List Byte) (s : State) : (loadFontTable table s).stack = s.stack := by
  simp only [loadFontTable]
@[simp] theorem loadFontTable_sp (table : List Byte) (s : State) : (loadFontTable table s).sp = s.sp := by
  simp only [loadFontTable]
@[simp] theorem loadFontTable_dt (table : List Byte) (s : State) : (loadFontTable table s).dt = s.dt := by
  simp only [loadFontTable]
@[simp] theorem loadFontTable_st (table : List Byte) (s : State) : (loadFontTable table s).st = s.st := by
  simp only [loadFontTable]
@[simp] theorem loadFontTable_key (table : List Byte) (s : State) : (loadFontTable table s).key = s.key := by
  simp only [loadFontTable]
@[simp] theorem loadFontTable_wait (table : List Byte) (s : State) : (loadFontTable table s).wait = s.wait := by
  simp only [loadFontTable]
@[simp] theorem loadFontTable_kprev (table : List Byte) (s : State) : (loadFontTable table s).kprev = s.kprev := by
  simp only [loadFontTable]
@[simp] theorem loadFontTable_fb (table : List Byte) (s : State) : (loadFontTable table s).fb = s.fb := by
  simp only [loadFontTable]
@[simp] theorem loadFontTable_draws (table : List Byte) (s : State) : (loadFontTable table s).draws = s.draws := by
  simp only [loadFontTable]
@[simp] theorem loadFontTable_pending (table : List Byte) (s : State) : (loadFontTable table s).pending = s.pending := by
  simp only [loadFontTable]

@[simp] theorem hostLoadFont_v (s : State) : (hostLoadFont s).v = s.v := by
  simp only [hostLoadFont, loadFontTable_v]
@[simp] theorem hostLoadFont_i (s : State) : (hostLoadFont s).i = s.i := by
  simp only [hostLoadFont, loadFontTable_i]
@[simp] theorem hostLoadFont_pc (s : State) : (hostLoadFont s).pc = s.pc := by
  simp only [hostLoadFont, loadFontTable_pc]
@[simp] theorem hostLoadFont_stack (s : State) : (hostLoadFont s).stack = s.stack := by
  simp only [hostLoadFont, loadFontTable_stack]
@[simp] theorem hostLoadFont_sp (s : State) : (hostLoadFont s).sp = s.sp := by
  simp only [hostLoadFont, loadFontTable_sp]
@[simp] theorem hostLoadFont_dt (s : State) : (hostLoadFont s).dt = s.dt := by
  simp only [hostLoadFont, loadFontTable_dt]
@[simp] theorem hostLoadFont_st (s : State) : (hostLoadFont s).st = s.st := by
  simp only [hostLoadFont, loadFontTable_st]
@[simp] theorem hostLoadFont_key (s : State) : (hostLoadFont s).key = s.key := by
  simp only [hostLoadFont, loadFontTable_key]
@[simp] theorem hostLoadFont_wait (s : State) : (hostLoadFont s).wait = s.wait := by
  simp only [hostLoadFont, loadFontTable_wait]
@[simp] theorem hostLoadFont_kprev (s : State) : (hostLoadFont s).kprev = s.kprev := by
  simp only [hostLoadFont, loadFontTable_kprev]
@[simp] theorem hostLoadFont_fb (s : State) : (hostLoadFont s).fb = s.fb := by
  simp only [hostLoadFont, loadFontTable_fb]
@[simp] theorem hostLoadFont_draws (s : State) : (hostLoadFont s).draws = s.draws := by
  simp only [hostLoadFont, loadFontTable_draws]
@[simp] theorem hostLoadFont_pending (s : State) : (hostLoadFont s).pending = s.pending := by
  simp only [hostLoadFont, loadFontTable_pending]

@[simp] theorem hostTick_mem (s : State) : (hostTick s).mem = s.mem := rfl
@[simp] theorem hostTick_v (s : State) : (hostTick s).v = s.v := rfl
@[simp] theorem hostTick_i (s : State) : (hostTick s).i = s.i := rfl
@[simp] theorem hostTick_pc (s : State) : (hostTick s).pc = s.pc := rfl
@[simp] theorem hostTick_stack (s : State) : (hostTick s).stack = s.stack := rfl
@[simp] theorem hostTick_sp (s : State) : (hostTick s).sp = s.sp := rfl
@[simp] theorem hostTick_key (s : State) : (hostTick s).key = s.key := rfl
@[simp] theorem hostTick_wait (s : State) : (hostTick s).wait = s.wait := rfl
@[simp] theorem hostTick_kprev (s : State) : (hostTick s).kprev = s.kprev := rfl
@[simp] theorem hostTick_fb (s : State) : (hostTick s).fb = s.fb := rfl
@[simp] theorem hostTick_draws (s : State) : (hostTick s).draws = s.draws := rfl
@[simp] theorem hostTick_pending (s : State) : (hostTick s).pending = s.pending := rfl

@[simp] theorem hostSetKey_mem (k : KeyIdx) (p : Bool) (s : State) : (hostSetKey k p s).mem = s.mem := rfl
@[simp] theorem hostSetKey_v (k : KeyIdx) (p : Bool) (s : State) : (hostSetKey k p s).v = s.v := rfl
@[simp] theorem hostSetKey_i (k : KeyIdx) (p : Bool) (s : State) : (hostSetKey k p s).i = s.i := rfl
@[simp] theorem hostSetKey_pc (k : KeyIdx) (p : Bool) (s : State) : (hostSetKey k p s).pc = s.pc := rfl
@[simp] theorem hostSetKey_stack (k : KeyIdx) (p : Bool) (s : State) : (hostSetKey k p s).stack = s.stack := rfl
@[simp] theorem hostSetKey_sp (k : KeyIdx) (p : Bool) (s : State) : (hostSetKey k p s).sp = s.sp := rfl
@[simp] theorem hostSetKey_dt (k : KeyIdx) (p : Bool) (s : State) : (hostSetKey k p s).dt = s.dt := rfl
@[simp] theorem hostSetKey_st (k : KeyIdx) (p : Bool) (s : State) : (hostSetKey k p s).st = s.st := rfl
@[simp] theorem hostSetKey_wait (k : KeyIdx) (p : Bool) (s : State) : (hostSetKey k p s).wait = s.wait := rfl
@[simp] theorem hostSetKey_kprev (k : KeyIdx) (p : Bool) (s : State) : (hostSetKey k p s).kprev = s.kprev := rfl
@[simp] theorem hostSetKey_fb (k : KeyIdx) (p : Bool) (s : State) : (hostSetKey k p s).fb = s.fb := rfl
@[simp] theorem hostSetKey_draws (k : KeyIdx) (p : Bool) (s : State) : (hostSetKey k p s).draws = s.draws := rfl
@[simp] theorem hostSetKey_pending (k : KeyIdx) (p : Bool) (s : State) : (hostSetKey k p s).pending = s.pending := rfl

@[simp] theorem takeEvent_mem (s : State) : (takeEvent s).mem = s.mem := rfl
@[simp] theorem takeEvent_v (s : State) : (takeEvent s).v = s.v := rfl
@[simp] theorem takeEvent_i (s : State) : (takeEvent s).i = s.i := rfl
@[simp] theorem takeEvent_pc (s : State) : (takeEvent s).pc = s.pc := rfl
@[simp] theorem takeEvent_stack (s : State) : (takeEvent s).stack = s.stack := rfl
@[simp] theorem takeEvent_sp (s : State) : (takeEvent s).sp = s.sp := rfl
@[simp] theorem takeEvent_dt (s : State) : (takeEvent s).dt = s.dt := rfl
@[simp] theorem takeEvent_st (s : State) : (takeEvent s).st = s.st := rfl
@[simp] theorem takeEvent_key (s : State) : (takeEvent s).key = s.key := rfl
@[simp] theorem takeEvent_wait (s : State) : (takeEvent s).wait = s.wait := rfl
@[simp] theorem takeEvent_kprev (s : State) : (takeEvent s).kprev = s.kprev := rfl
@[simp] theorem takeEvent_fb (s : State) : (takeEvent s).fb = s.fb := rfl
@[simp] theorem takeEvent_draws (s : State) : (takeEvent s).draws = s.draws := rfl

@[simp] theorem hostLoadFont_mem (s : State) : (hostLoadFont s).mem = storeBytes s.mem fontBase font := by
  simp only [hostLoadFont, loadFontTable]
@[simp] theorem hostTick_dt (s : State) : (hostTick s).dt = countDown s.dt := rfl
@[simp] theorem hostTick_st (s : State) : (hostTick s).st = countDown s.st := rfl
@[simp] theorem hostSetKey_key (k : KeyIdx) (p : Bool) (s : State) : (hostSetKey k p s).key = s.key.set k.val p := rfl
@[simp] theorem takeEvent_pending (s : State) : (takeEvent s).pending = s.pending.tail := rfl

@[simp] theorem hostReset_mem (s : State) : (hostReset s).mem = State.reset.mem := rfl
@[simp] theorem hostReset_v (s : State) : (hostReset s).v = State.reset.v := rfl
@[simp] theorem hostReset_i (s : State) : (hostReset s).i = State.reset.i := rfl
@[simp] theorem hostReset_pc (s : State) : (hostReset s).pc = State.reset.pc := rfl
@[simp] theorem hostReset_stack (s : State) : (hostReset s).stack = State.reset.stack := rfl
@[simp] theorem hostReset_sp (s : State) : (hostReset s).sp = State.reset.sp := rfl
@[simp] theorem hostReset_dt (s : State) : (hostReset s).dt = State.reset.dt := rfl
@[simp] theorem hostReset_st (s : State) : (hostReset s).st = State.reset.st := rfl
@[simp] theorem hostReset_key (s : State) : (hostReset s).key = State.reset.key := rfl
@[simp] theorem hostReset_wait (s : State) : (hostReset s).wait = State.reset.wait := rfl
@[simp] theorem hostReset_kprev (s : State) : (hostReset s).kprev = State.reset.kprev := rfl
@[simp] theorem hostReset_fb (s : State) : (hostReset s).fb = State.reset.fb := rfl
@[simp] theorem hostReset_draws (s : State) : (hostReset s).draws = s.draws := rfl
@[simp] theorem hostReset_pending (s : State) : (hostReset s).pending = s.pending := rfl

@[simp] theorem pollKeys_mem (x : RegIdx) (s : State) : (pollKeys x s).mem = s.mem := by
  unfold pollKeys; split <;> rfl
@[simp] theorem pollKeys_i (x : RegIdx) (s : State) : (pollKeys x s).i = s.i := by
  unfold pollKeys; split <;> rfl
@[simp] theorem pollKeys_pc (x : RegIdx) (s : State) : (pollKeys x s).pc = s.pc := by
  unfold pollKeys; split <;> rfl
@[simp] theorem pollKeys_stack (x : RegIdx) (s : State) : (pollKeys x s).stack = s.stack := by
  unfold pollKeys; split <;> rfl
@[simp] theorem pollKeys_sp (x : RegIdx) (s : State) : (pollKeys x s).sp = s.sp := by
  unfold pollKeys; split <;> rfl
@[simp] theorem pollKeys_dt (x : RegIdx) (s : State) : (pollKeys x s).dt = s.dt := by
  unfold pollKeys; split <;> rfl
@[simp] theorem pollKeys_st (x : RegIdx) (s : State) : (pollKeys x s).st = s.st := by
  unfold pollKeys; split <;> rfl
@[simp] theorem pollKeys_key (x : RegIdx) (s : State) : (pollKeys x s).key = s.key := by
  unfold pollKeys; split <;> rfl
@[simp] theorem pollKeys_fb (x : RegIdx) (s : State) : (pollKeys x s).fb = s.fb := by
  unfold pollKeys; split <;> rfl
@[simp] theorem pollKeys_draws (x : RegIdx) (s : State) : (pollKeys x s).draws = s.draws := by
  unfold pollKeys; split <;> rfl
@[simp] theorem pollKeys_pending (x : RegIdx) (s : State) : (pollKeys x s).pending = s.pending := by
  unfold pollKeys; split <;> rfl

/-- A key that went down is down now and was up at the last sample (44_keypad_timers.md R204). -/
theorem wentDown_iff (s : State) (k : KeyIdx) :
    s.wentDown k = true ↔ s.key[k.val] = true ∧ s.kprev[k.val] = false := by simp [State.wentDown]

theorem pollKeys_none {x : RegIdx} {s : State} (h : s.firstDown = none) :
    pollKeys x s = { s with kprev := s.key } := by simp [pollKeys, h]

theorem pollKeys_some {x : RegIdx} {s : State} {k : KeyIdx} (h : s.firstDown = some k) :
    pollKeys x s = { s.setReg x (BitVec.ofNat 8 k.val) with wait := none } := by simp [pollKeys, h]

/-- A sequence of ticks is the tick iterated. -/
theorem afterEvents_ticks (n : Nat) (s : State) :
    (afterEvents (List.replicate n .tick) s).1 = hostTick^[n] s := by
  induction n generalizing s with
  | zero => rfl
  | succ n ih => simp only [List.replicate_succ, afterEvents, Function.iterate_succ, Function.comp]; exact ih _

end Sys2Proof.Machine
end

