-- ==== Sys2Proof/Laws/Exec.lean ====
section
/-! SUPPORT. Frames of the shared updates, the values of the arithmetic helpers as numbers, and the answers of the
instructions that can fail, in the terms of Safety.lean. -/

namespace Sys2Proof.Machine

/-! ### Frames of the shared updates -/

theorem KeepsAllBut.refl (ps : List Part) (s : State) : KeepsAllBut ps s s := by
  intro p _; cases p <;> first | rfl | exact fun _ => rfl

theorem Part.Same.trans {p : Part} {s t u : State} (h1 : p.Same s t) (h2 : p.Same t u) : p.Same s u := by
  cases p <;> simp_all [Part.Same]

theorem KeepsAllBut.trans {ps : List Part} {s t u : State} (h1 : KeepsAllBut ps s t) (h2 : KeepsAllBut ps t u) :
    KeepsAllBut ps s u := fun p hp => (h1 p hp).trans (h2 p hp)

theorem KeepsAllBut.mono {ps qs : List Part} {s t : State} (h : KeepsAllBut ps s t) (hs : ∀ p ∈ ps, p ∈ qs) :
    KeepsAllBut qs s t := fun p hp => h p fun hm => hp (hs p hm)

theorem skipIf_keeps (s : State) (c : Bool) : KeepsAllBut [.pc] s (s.skipIf c) := by
  intro p hp; cases p <;> simp_all [Part.Same]

theorem setReg_keeps (s : State) (x : RegIdx) (b : Byte) : KeepsAllBut [.v] s (s.setReg x b) := by
  intro p hp; cases p <;> simp_all [Part.Same]

theorem setReg_regs (s : State) (x : RegIdx) (b : Byte) : RegsKeptBut [x] s (s.setReg x b) :=
  fun _ hk => reg_setReg_other _ _ (by simpa using hk)

theorem setRegFlag_keeps (s : State) (x : RegIdx) (b : Byte) (f : Bool) :
    KeepsAllBut [.v] s (s.setRegFlag x b f) := by
  intro p hp; cases p <;> simp_all [Part.Same]

theorem setRegFlag_regs (s : State) (x : RegIdx) (b : Byte) (f : Bool) :
    RegsKeptBut [x, vF] s (s.setRegFlag x b f) := by
  intro k hk
  simp only [List.mem_cons, List.not_mem_nil, or_false, not_or] at hk
  exact reg_setRegFlag_other _ _ _ hk.1 hk.2

theorem storeAtI_keeps (s : State) (bs : List Byte) : KeepsAllBut [.mem] s (s.storeAtI bs) := by
  intro p hp; cases p <;> simp_all [Part.Same]

theorem storeAtI_bytes (s : State) (bs : List Byte) : BytesKeptOutside s.i.toNat bs.length s (s.storeAtI bs) :=
  fun _ hb => memGet_storeBytes_outside _ _ _ hb

theorem loadBlock_keeps (s : State) (x : RegIdx) : KeepsAllBut [.v] s (s.loadBlock x) := by
  intro p hp; cases p <;> simp_all [Part.Same]

/-! ### Results and flags as numbers (41_alu.md R152) -/

theorem toNat_flagByte (f : Bool) : (flagByte f).toNat = if f then 1 else 0 := by cases f <;> rfl

theorem flagByte_eq_one (f : Bool) : flagByte f = 1 ↔ f = true := by cases f <;> decide

theorem toNat_addResult (a b : Byte) : (addResult a b).toNat = (a.toNat + b.toNat) % 256 := by simp [addResult]

theorem toNat_subResult (a b : Byte) : (subResult a b).toNat = (a.toNat + 256 - b.toNat) % 256 := by
  have := a.isLt; have := b.isLt
  unfold subResult; split
  · simp
  · simp; omega

theorem toNat_countDown (t : Byte) : (countDown t).toNat = t.toNat - 1 := by revert t; decide

theorem toNat_addressOf (nnn : Imm12) : (addressOf nnn).toNat = nnn.toNat := by
  have := nnn.isLt; simp [addressOf]; omega

theorem val_lowNibble (s : State) (x : RegIdx) : (s.lowNibble x).val = (s.reg x).toNat % 16 := by
  simp [State.lowNibble]

theorem toNat_glyphAddress (d : Fin 16) : (glyphAddress d).toNat = 0x050 + 5 * d.val := by
  simp [glyphAddress, fontBase, glyphBytes]; omega

theorem length_font : font.length = 80 := rfl

theorem fontBase_val : fontBase = 0x050 := rfl

/-! ### The call stack instructions -/

theorem execRet_next (s : State) (h : 0 < s.sp.val) :
    exec .ret s =
      .next { s with pc := s.stack[s.sp.val - 1]'(by omega), sp := ⟨s.sp.val - 1, by omega⟩ } := by
  simp only [exec, execRet]; rw [popThen_next _ _ h]

theorem execRet_fault (s : State) (h : s.sp.val = 0) : exec .ret s = .fault .stackUnderflow := by
  simp only [exec, execRet]; exact popThen_fault _ _ (Fin.ext h)

theorem execCall_next (nnn : Imm12) (s : State) (h : s.sp.val < 16) :
    exec (.call nnn) s =
      .next { s with pc := addressOf nnn, stack := s.stack.set s.sp.val s.pc, sp := ⟨s.sp.val + 1, by omega⟩ } := by
  simp only [exec, execCall]; rw [pushThen_next _ _ _ h]

theorem execCall_fault (nnn : Imm12) (s : State) (h : s.sp.val = 16) :
    exec (.call nnn) s = .fault .stackOverflow := by
  simp only [exec, execCall]; exact pushThen_fault _ _ _ (Fin.ext h)

/-- `ADD I,Vx` raises with the sum, or completes with it (42_index_memory.md R172). -/
theorem execAddI_cases (x : RegIdx) (s : State) :
    (4096 ≤ s.i.toNat + (s.reg x).toNat ∧
      exec (.addI x) s = .fault (.outOfBounds (BitVec.ofNat 16 (s.i.toNat + (s.reg x).toNat)))) ∨
    (s.i.toNat + (s.reg x).toNat < 4096 ∧
      exec (.addI x) s = .next { s with i := BitVec.ofNat 16 (s.i.toNat + (s.reg x).toNat) }) := by
  have e : s.i + (s.reg x).setWidth 16 = BitVec.ofNat 16 (s.i.toNat + (s.reg x).toNat) := by
    apply BitVec.eq_of_toNat_eq; simp
  by_cases h : 4096 ≤ s.i.toNat + (s.reg x).toNat
  · exact .inl ⟨h, by simp only [exec, execAddI]; rw [if_pos (by simpa using h), e]; rfl⟩
  · exact .inr ⟨by omega, by simp only [exec, execAddI]; rw [if_neg (by simpa using h), e]⟩

/-! ### The instructions that access memory at `I` -/

/-- `DRW` raises `OutOfBounds(4096)`, or completes with the drawn grid and the collision in `VF` (43_display.md R192). -/
theorem execDrw_cases (x y : RegIdx) (n : Nat) (s : State) :
    (0 < n ∧ 4096 < s.i.toNat + n ∧ exec (.drw x y n) s = .fault (.outOfBounds 0x1000)) ∨
    ((n = 0 ∨ s.i.toNat + n ≤ 4096) ∧ exec (.drw x y n) s =
      .next ({ s with fb := (drawn x y n s).1 }.setReg vF (flagByte (drawn x y n s).2))) :=
  withAccess_cases s n _

/-- `LD B,Vx` raises `OutOfBounds(4096)`, or stores the three digits (42_index_memory.md R174). -/
theorem execLdB_cases (x : RegIdx) (s : State) :
    (4096 ≤ s.i.toNat + 2 ∧ exec (.ldB x) s = .fault (.outOfBounds 0x1000)) ∨
    (s.i.toNat + 2 < 4096 ∧ exec (.ldB x) s = .next (s.storeAtI (bcdDigits (s.reg x)))) := by
  rcases withAccess_cases s 3 (s.storeAtI (bcdDigits (s.reg x))) with ⟨_, h, e⟩ | ⟨h, e⟩
  · exact .inl ⟨by omega, e⟩
  · exact .inr ⟨by omega, e⟩

/-- `LD [I],Vx` raises `OutOfBounds(4096)`, or stores `V0 .. Vx` (42_index_memory.md R175). -/
theorem execLdMemVx_cases (x : RegIdx) (s : State) :
    (4096 ≤ s.i.toNat + x.val ∧ exec (.ldMemVx x) s = .fault (.outOfBounds 0x1000)) ∨
    (s.i.toNat + x.val < 4096 ∧ exec (.ldMemVx x) s = .next (s.storeAtI (s.regBlock x))) := by
  rcases withAccess_cases s (x.val + 1) (s.storeAtI (s.regBlock x)) with ⟨_, h, e⟩ | ⟨h, e⟩
  · exact .inl ⟨by omega, e⟩
  · exact .inr ⟨by omega, e⟩

/-- `LD Vx,[I]` raises `OutOfBounds(4096)`, or loads `V0 .. Vx` (42_index_memory.md R176). -/
theorem execLdVxMem_cases (x : RegIdx) (s : State) :
    (4096 ≤ s.i.toNat + x.val ∧ exec (.ldVxMem x) s = .fault (.outOfBounds 0x1000)) ∨
    (s.i.toNat + x.val < 4096 ∧ exec (.ldVxMem x) s = .next (s.loadBlock x)) := by
  rcases withAccess_cases s (x.val + 1) (s.loadBlock x) with ⟨_, h, e⟩ | ⟨h, e⟩
  · exact .inl ⟨by omega, e⟩
  · exact .inr ⟨by omega, e⟩

/-! ### Sprites -/

/-- The pixels under a sprite are those its bits hit in the drawing loop (43_display.md R192). -/
theorem spriteCovers_iff (x y : RegIdx) (n : Nat) (s : State) (r : Fin 32) (c : Fin 64) :
    SpriteCovers x y n s r c ↔
      spriteHits (s.reg x).toNat (s.reg y).toNat (bytesAtI s n) r c = true := by
  rw [spriteHits_iff]
  unfold SpriteCovers bytesAtI
  constructor
  · rintro ⟨j, b, hj, hb, hr, hc, hbit⟩
    exact ⟨j, b, by simpa using hj, hb, hr, hc, by simpa using hbit⟩
  · rintro ⟨j, b, hj, hb, hr, hc, hbit⟩
    exact ⟨j, b, by simpa using hj, hb, hr, hc, by simpa using hbit⟩

/-! ### What a fetch sees of a store -/

/-- Every byte after a store, inside the block and outside it. -/
theorem memGet_storeBytes (m : Memory) (a : Nat) (bs : List Byte) (b : Nat) :
    memGet (storeBytes m a bs) b = byteAfterStore m a bs b := by
  unfold byteAfterStore
  split
  · by_cases h : b - a < bs.length
    · have := memGet_storeBytes_inside m a bs h
      rw [show a + (b - a) = b by omega] at this
      simp [this, List.getD, h]
    · rw [memGet_storeBytes_outside _ _ _ (by omega)]; simp [List.getD, h]
  · rw [memGet_storeBytes_outside _ _ _ (by omega)]

theorem fetchSeesStore_of_mem {a : Nat} {bs : List Byte} {s t : State} (h : t.mem = storeBytes s.mem a bs) :
    FetchSeesStore a bs s t := by
  intro p hp
  rw [fetchBytes_inside _ hp]
  simp only [h, memGet_storeBytes]

end Sys2Proof.Machine
end

