-- ==== Sys2Proof/Laws/PerInstr.lean ====
section
/-! SUPPORT. Per-instruction family `TableRow`: the encoder's word of every instruction matches that instruction's row of
the opcode table (30_encoding.md R96), one lemma per constructor. -/

namespace Sys2Proof.Laws.TableRow

/-- The row of a well-formed instruction is in the table, and its word matches the row's mask and pattern. -/
def Statement (i : Instr) : Prop :=
  i.wellFormed = true → rowOf i ∈ opcodeTable ∧ rowMatches (encode i) (rowOf i) = true

/-- Mask `0xF000` keeps the major opcode. -/
theorem mask_formatNNN (op : BitVec 4) (nnn : Imm12) : formatNNN op nnn &&& (0xF000 : Word) = formatNNN op 0 := by
  have h : (0xF000 : Word) = BitVec.allOnes 4 ++ 0#12 := by decide
  rw [h, formatNNN, formatNNN, BitVec.and_append]; simp only [BitVec.and_allOnes, BitVec.and_zero]; rfl

theorem mask_formatXNN (op : BitVec 4) (x : RegIdx) (nn : Byte) :
    formatXNN op x nn &&& (0xF000 : Word) = formatXNN op 0 0 := by
  have h : (0xF000 : Word) = BitVec.allOnes 4 ++ 0#4 ++ 0#8 := by decide
  have r0 : regNibble 0 = 0 := rfl
  rw [h, formatXNN, formatXNN, BitVec.and_append, BitVec.and_append, r0]; simp only [BitVec.and_allOnes, BitVec.and_zero]; rfl

/-- Mask `0xF0FF` keeps the major opcode and the low byte. -/
theorem mask_formatX (op : BitVec 4) (x : RegIdx) (minor : Byte) :
    formatX op x minor &&& (0xF0FF : Word) = formatX op 0 minor := by
  have h : (0xF0FF : Word) = BitVec.allOnes 4 ++ 0#4 ++ BitVec.allOnes 8 := by decide
  have r0 : regNibble 0 = 0 := rfl
  rw [h, formatX, formatX, BitVec.and_append, BitVec.and_append, r0]; simp only [BitVec.and_allOnes, BitVec.and_zero]; rfl

/-- Mask `0xF00F` keeps the first and the last nibble. -/
theorem mask_formatXY (op : BitVec 4) (x y : RegIdx) (n : BitVec 4) :
    formatXYN op x y n &&& (0xF00F : Word) = formatXYN op 0 0 n := by
  have h : (0xF00F : Word) = BitVec.allOnes 4 ++ 0#4 ++ 0#4 ++ BitVec.allOnes 4 := by decide
  have r0 : regNibble 0 = 0 := rfl
  rw [h, formatXYN, formatXYN, ofNibbles, ofNibbles, BitVec.and_append, BitVec.and_append, BitVec.and_append, r0]; simp only [BitVec.and_allOnes, BitVec.and_zero]; rfl

theorem mask_formatXYN (op : BitVec 4) (x y : RegIdx) (n : BitVec 4) :
    formatXYN op x y n &&& (0xF000 : Word) = formatXYN op 0 0 0 := by
  have h : (0xF000 : Word) = BitVec.allOnes 4 ++ 0#4 ++ 0#4 ++ 0#4 := by decide
  have r0 : regNibble 0 = 0 := rfl
  rw [h, formatXYN, formatXYN, ofNibbles, ofNibbles, BitVec.and_append, BitVec.and_append, BitVec.and_append, r0]; simp only [BitVec.and_allOnes, BitVec.and_zero]; rfl

theorem cls : Statement .cls := fun _ => ⟨by decide, by decide⟩
theorem ret : Statement .ret := fun _ => ⟨by decide, by decide⟩
theorem jp (nnn : Imm12) : Statement (.jp nnn) :=
  fun _ => ⟨by simp [opcodeTable, opcodeRowsLow, opcodeRowsMid, opcodeRowsHigh, rowOf], by
    simp only [rowMatches, encode, rowOf, beq_iff_eq]; rw [mask_formatNNN]; decide⟩
theorem call (nnn : Imm12) : Statement (.call nnn) :=
  fun _ => ⟨by simp [opcodeTable, opcodeRowsLow, opcodeRowsMid, opcodeRowsHigh, rowOf], by
    simp only [rowMatches, encode, rowOf, beq_iff_eq]; rw [mask_formatNNN]; decide⟩
theorem seImm (x : RegIdx) (nn : Byte) : Statement (.seImm x nn) :=
  fun _ => ⟨by simp [opcodeTable, opcodeRowsLow, opcodeRowsMid, opcodeRowsHigh, rowOf], by
    simp only [rowMatches, encode, rowOf, beq_iff_eq]; rw [mask_formatXNN]; decide⟩
theorem sneImm (x : RegIdx) (nn : Byte) : Statement (.sneImm x nn) :=
  fun _ => ⟨by simp [opcodeTable, opcodeRowsLow, opcodeRowsMid, opcodeRowsHigh, rowOf], by
    simp only [rowMatches, encode, rowOf, beq_iff_eq]; rw [mask_formatXNN]; decide⟩
theorem seReg (x y : RegIdx) : Statement (.seReg x y) :=
  fun _ => ⟨by simp [opcodeTable, opcodeRowsLow, opcodeRowsMid, opcodeRowsHigh, rowOf], by
    simp only [rowMatches, encode, rowOf, beq_iff_eq]; rw [mask_formatXY]; decide⟩
theorem ldImm (x : RegIdx) (nn : Byte) : Statement (.ldImm x nn) :=
  fun _ => ⟨by simp [opcodeTable, opcodeRowsLow, opcodeRowsMid, opcodeRowsHigh, rowOf], by
    simp only [rowMatches, encode, rowOf, beq_iff_eq]; rw [mask_formatXNN]; decide⟩
theorem addImm (x : RegIdx) (nn : Byte) : Statement (.addImm x nn) :=
  fun _ => ⟨by simp [opcodeTable, opcodeRowsLow, opcodeRowsMid, opcodeRowsHigh, rowOf], by
    simp only [rowMatches, encode, rowOf, beq_iff_eq]; rw [mask_formatXNN]; decide⟩
theorem ldReg (x y : RegIdx) : Statement (.ldReg x y) :=
  fun _ => ⟨by simp [opcodeTable, opcodeRowsLow, opcodeRowsMid, opcodeRowsHigh, rowOf], by
    simp only [rowMatches, encode, rowOf, beq_iff_eq]; rw [mask_formatXY]; decide⟩
theorem orReg (x y : RegIdx) : Statement (.orReg x y) :=
  fun _ => ⟨by simp [opcodeTable, opcodeRowsLow, opcodeRowsMid, opcodeRowsHigh, rowOf], by
    simp only [rowMatches, encode, rowOf, beq_iff_eq]; rw [mask_formatXY]; decide⟩
theorem andReg (x y : RegIdx) : Statement (.andReg x y) :=
  fun _ => ⟨by simp [opcodeTable, opcodeRowsLow, opcodeRowsMid, opcodeRowsHigh, rowOf], by
    simp only [rowMatches, encode, rowOf, beq_iff_eq]; rw [mask_formatXY]; decide⟩
theorem xorReg (x y : RegIdx) : Statement (.xorReg x y) :=
  fun _ => ⟨by simp [opcodeTable, opcodeRowsLow, opcodeRowsMid, opcodeRowsHigh, rowOf], by
    simp only [rowMatches, encode, rowOf, beq_iff_eq]; rw [mask_formatXY]; decide⟩
theorem addReg (x y : RegIdx) : Statement (.addReg x y) :=
  fun _ => ⟨by simp [opcodeTable, opcodeRowsLow, opcodeRowsMid, opcodeRowsHigh, rowOf], by
    simp only [rowMatches, encode, rowOf, beq_iff_eq]; rw [mask_formatXY]; decide⟩
theorem subReg (x y : RegIdx) : Statement (.subReg x y) :=
  fun _ => ⟨by simp [opcodeTable, opcodeRowsLow, opcodeRowsMid, opcodeRowsHigh, rowOf], by
    simp only [rowMatches, encode, rowOf, beq_iff_eq]; rw [mask_formatXY]; decide⟩
theorem shr (x y : RegIdx) : Statement (.shr x y) :=
  fun _ => ⟨by simp [opcodeTable, opcodeRowsLow, opcodeRowsMid, opcodeRowsHigh, rowOf], by
    simp only [rowMatches, encode, rowOf, beq_iff_eq]; rw [mask_formatXY]; decide⟩
theorem subnReg (x y : RegIdx) : Statement (.subnReg x y) :=
  fun _ => ⟨by simp [opcodeTable, opcodeRowsLow, opcodeRowsMid, opcodeRowsHigh, rowOf], by
    simp only [rowMatches, encode, rowOf, beq_iff_eq]; rw [mask_formatXY]; decide⟩
theorem shl (x y : RegIdx) : Statement (.shl x y) :=
  fun _ => ⟨by simp [opcodeTable, opcodeRowsLow, opcodeRowsMid, opcodeRowsHigh, rowOf], by
    simp only [rowMatches, encode, rowOf, beq_iff_eq]; rw [mask_formatXY]; decide⟩
theorem sneReg (x y : RegIdx) : Statement (.sneReg x y) :=
  fun _ => ⟨by simp [opcodeTable, opcodeRowsLow, opcodeRowsMid, opcodeRowsHigh, rowOf], by
    simp only [rowMatches, encode, rowOf, beq_iff_eq]; rw [mask_formatXY]; decide⟩
theorem ldI (nnn : Imm12) : Statement (.ldI nnn) :=
  fun _ => ⟨by simp [opcodeTable, opcodeRowsLow, opcodeRowsMid, opcodeRowsHigh, rowOf], by
    simp only [rowMatches, encode, rowOf, beq_iff_eq]; rw [mask_formatNNN]; decide⟩
theorem jpV0 (nnn : Imm12) : Statement (.jpV0 nnn) :=
  fun _ => ⟨by simp [opcodeTable, opcodeRowsLow, opcodeRowsMid, opcodeRowsHigh, rowOf], by
    simp only [rowMatches, encode, rowOf, beq_iff_eq]; rw [mask_formatNNN]; decide⟩
theorem rnd (x : RegIdx) (nn : Byte) : Statement (.rnd x nn) :=
  fun _ => ⟨by simp [opcodeTable, opcodeRowsLow, opcodeRowsMid, opcodeRowsHigh, rowOf], by
    simp only [rowMatches, encode, rowOf, beq_iff_eq]; rw [mask_formatXNN]; decide⟩
theorem drw (x y : RegIdx) (n : Nat) : Statement (.drw x y n) :=
  fun _ => ⟨by simp [opcodeTable, opcodeRowsLow, opcodeRowsMid, opcodeRowsHigh, rowOf], by
    simp only [rowMatches, encode, rowOf, beq_iff_eq]; rw [mask_formatXYN]; decide⟩
theorem skp (x : RegIdx) : Statement (.skp x) :=
  fun _ => ⟨by simp [opcodeTable, opcodeRowsLow, opcodeRowsMid, opcodeRowsHigh, rowOf], by
    simp only [rowMatches, encode, rowOf, beq_iff_eq]; rw [mask_formatX]; decide⟩
theorem sknp (x : RegIdx) : Statement (.sknp x) :=
  fun _ => ⟨by simp [opcodeTable, opcodeRowsLow, opcodeRowsMid, opcodeRowsHigh, rowOf], by
    simp only [rowMatches, encode, rowOf, beq_iff_eq]; rw [mask_formatX]; decide⟩
theorem ldVxDt (x : RegIdx) : Statement (.ldVxDt x) :=
  fun _ => ⟨by simp [opcodeTable, opcodeRowsLow, opcodeRowsMid, opcodeRowsHigh, rowOf], by
    simp only [rowMatches, encode, rowOf, beq_iff_eq]; rw [mask_formatX]; decide⟩
theorem ldVxK (x : RegIdx) : Statement (.ldVxK x) :=
  fun _ => ⟨by simp [opcodeTable, opcodeRowsLow, opcodeRowsMid, opcodeRowsHigh, rowOf], by
    simp only [rowMatches, encode, rowOf, beq_iff_eq]; rw [mask_formatX]; decide⟩
theorem ldDtVx (x : RegIdx) : Statement (.ldDtVx x) :=
  fun _ => ⟨by simp [opcodeTable, opcodeRowsLow, opcodeRowsMid, opcodeRowsHigh, rowOf], by
    simp only [rowMatches, encode, rowOf, beq_iff_eq]; rw [mask_formatX]; decide⟩
theorem ldStVx (x : RegIdx) : Statement (.ldStVx x) :=
  fun _ => ⟨by simp [opcodeTable, opcodeRowsLow, opcodeRowsMid, opcodeRowsHigh, rowOf], by
    simp only [rowMatches, encode, rowOf, beq_iff_eq]; rw [mask_formatX]; decide⟩
theorem addI (x : RegIdx) : Statement (.addI x) :=
  fun _ => ⟨by simp [opcodeTable, opcodeRowsLow, opcodeRowsMid, opcodeRowsHigh, rowOf], by
    simp only [rowMatches, encode, rowOf, beq_iff_eq]; rw [mask_formatX]; decide⟩
theorem ldF (x : RegIdx) : Statement (.ldF x) :=
  fun _ => ⟨by simp [opcodeTable, opcodeRowsLow, opcodeRowsMid, opcodeRowsHigh, rowOf], by
    simp only [rowMatches, encode, rowOf, beq_iff_eq]; rw [mask_formatX]; decide⟩
theorem ldB (x : RegIdx) : Statement (.ldB x) :=
  fun _ => ⟨by simp [opcodeTable, opcodeRowsLow, opcodeRowsMid, opcodeRowsHigh, rowOf], by
    simp only [rowMatches, encode, rowOf, beq_iff_eq]; rw [mask_formatX]; decide⟩
theorem ldMemVx (x : RegIdx) : Statement (.ldMemVx x) :=
  fun _ => ⟨by simp [opcodeTable, opcodeRowsLow, opcodeRowsMid, opcodeRowsHigh, rowOf], by
    simp only [rowMatches, encode, rowOf, beq_iff_eq]; rw [mask_formatX]; decide⟩
theorem ldVxMem (x : RegIdx) : Statement (.ldVxMem x) :=
  fun _ => ⟨by simp [opcodeTable, opcodeRowsLow, opcodeRowsMid, opcodeRowsHigh, rowOf], by
    simp only [rowMatches, encode, rowOf, beq_iff_eq]; rw [mask_formatX]; decide⟩

end Sys2Proof.Laws.TableRow
end

