-- ==== Sys2Proof/Tests/Slice0.lean ====
section
/-! SUPPORT. The model's own tests, expected results taken from spec/95_test_vectors.md and the encoding tables, and the
witnesses of the statements' hypotheses. -/

namespace Sys2Proof.Tests

open Sys2Proof.Machine

/-! ### Helpers -/

/-- The reset state with the word `w` at `0x200`, about to be fetched. -/
def code (w : Nat) : State := State.reset.withFetchWord 16 w

/-- The same with memory bytes at `a` and `I = a`. -/
def codeData (w : Nat) (a : Word) (bs : List Byte) : State :=
  { code w with mem := storeBytes (code w).mem a.toNat bs, i := a }

/-- A register after an answer. -/
def regOf (o : Answer) (x : RegIdx) : Option Byte :=
  match o with
  | .next t => some (t.reg x)
  | .fault _ | .refused _ => none

/-- A register and `VF` after an answer. -/
def regFlag (o : Answer) (x : RegIdx) : Option (Byte × Byte) :=
  match o with
  | .next t => some (t.reg x, t.reg vF)
  | .fault _ | .refused _ => none

/-- `pc` after an answer. -/
def pcOf (o : Answer) : Option Word :=
  match o with
  | .next t => some t.pc
  | .fault _ | .refused _ => none

/-- `I` after an answer. -/
def iOf (o : Answer) : Option Word :=
  match o with
  | .next t => some t.i
  | .fault _ | .refused _ => none

/-- Bytes of memory after an answer. -/
def bytesOf (o : Answer) (a n : Nat) : Option (List Byte) :=
  match o with
  | .next t => some (loadBytes t.mem a n)
  | .fault _ | .refused _ => none

/-- The error of an answer. -/
def faultIn (o : Answer) : Option Fault :=
  match o with
  | .fault f => some f
  | .next _ | .refused _ => none

/-- Whether an answer is a next state. -/
def isNext (o : Answer) : Bool :=
  match o with
  | .next _ => true
  | .fault _ | .refused _ => false

/-! ### Well-formedness: the one check, and a term it refuses -/

theorem test_wf_refuses_row_count_16 : Instr.wellFormed (.drw 0 1 16) = false := by decide
theorem test_wf_accepts_row_count_15 : Instr.wellFormed (.drw 0 1 15) = true := by decide

/-! ### Decoding: a word of every row, written out from 30_encoding.md R96 and the vectors -/

theorem test_decode_cls : decodeTableWord 16 0x00E0 = some .cls := by decide
theorem test_decode_ret : decodeTableWord 16 0x00EE = some .ret := by decide
theorem test_decode_jp : decodeTableWord 16 0x1234 = some (.jp 0x234) := by decide
theorem test_decode_call : decodeTableWord 16 0x2ABC = some (.call 0xABC) := by decide
theorem test_decode_seImm : decodeTableWord 16 0x332A = some (.seImm 3 0x2A) := by decide
theorem test_decode_sneImm : decodeTableWord 16 0x432A = some (.sneImm 3 0x2A) := by decide
theorem test_decode_seReg : decodeTableWord 16 0x5120 = some (.seReg 1 2) := by decide
theorem test_decode_ldImm : decodeTableWord 16 0x6012 = some (.ldImm 0 0x12) := by decide
theorem test_decode_addImm : decodeTableWord 16 0x7003 = some (.addImm 0 0x03) := by decide
theorem test_decode_ldReg : decodeTableWord 16 0x8120 = some (.ldReg 1 2) := by decide
theorem test_decode_orReg : decodeTableWord 16 0x8121 = some (.orReg 1 2) := by decide
theorem test_decode_andReg : decodeTableWord 16 0x8122 = some (.andReg 1 2) := by decide
theorem test_decode_xorReg : decodeTableWord 16 0x8123 = some (.xorReg 1 2) := by decide
theorem test_decode_addReg : decodeTableWord 16 0x8F14 = some (.addReg 15 1) := by decide
theorem test_decode_subReg : decodeTableWord 16 0x8125 = some (.subReg 1 2) := by decide
theorem test_decode_shr : decodeTableWord 16 0x8AB6 = some (.shr 10 11) := by decide
theorem test_decode_subnReg : decodeTableWord 16 0x8127 = some (.subnReg 1 2) := by decide
theorem test_decode_shl : decodeTableWord 16 0x812E = some (.shl 1 2) := by decide
theorem test_decode_sneReg : decodeTableWord 16 0x9120 = some (.sneReg 1 2) := by decide
theorem test_decode_ldI : decodeTableWord 16 0xA2F0 = some (.ldI 0x2F0) := by decide
theorem test_decode_jpV0 : decodeTableWord 16 0xB300 = some (.jpV0 0x300) := by decide
theorem test_decode_rnd : decodeTableWord 16 0xC30F = some (.rnd 3 0x0F) := by decide
theorem test_decode_drw : decodeTableWord 16 0xDF15 = some (.drw 15 1 5) := by decide
theorem test_decode_skp : decodeTableWord 16 0xE29E = some (.skp 2) := by decide
theorem test_decode_sknp : decodeTableWord 16 0xE2A1 = some (.sknp 2) := by decide
theorem test_decode_ldVxDt : decodeTableWord 16 0xF507 = some (.ldVxDt 5) := by decide
theorem test_decode_ldVxK : decodeTableWord 16 0xF30A = some (.ldVxK 3) := by decide
theorem test_decode_ldDtVx : decodeTableWord 16 0xF515 = some (.ldDtVx 5) := by decide
theorem test_decode_ldStVx : decodeTableWord 16 0xF118 = some (.ldStVx 1) := by decide
theorem test_decode_addI : decodeTableWord 16 0xF21E = some (.addI 2) := by decide
theorem test_decode_ldF : decodeTableWord 16 0xF429 = some (.ldF 4) := by decide
theorem test_decode_ldB : decodeTableWord 16 0xF033 = some (.ldB 0) := by decide
theorem test_decode_ldMemVx : decodeTableWord 16 0xF255 = some (.ldMemVx 2) := by decide
theorem test_decode_ldVxMem : decodeTableWord 16 0xF265 = some (.ldVxMem 2) := by decide

/-- 95_test_vectors.md F6 to F11: illegal words. -/
theorem test_decode_illegal : decode 0x0123 = none ∧ decode 0x00E1 = none ∧ decode 0x5121 = none ∧ decode 0x912F = none ∧
    decode 0x8128 = none ∧ decode 0x812F = none ∧ decode 0xE19F = none ∧ decode 0xF175 = none := by decide
theorem test_decode_truncated : decodeBytes [0x60] = .truncated := by decide
/-- 20_memory.md R62: the byte at the lower address is the high byte. -/
theorem test_big_endian : decodeBytes [0x60, 0x12] = .instr (.ldImm 0 0x12) := by decide
theorem test_encode_bytes : encodeBytes (.drw 15 1 5) = [0xDF, 0x15] := by decide

/-! ### One step, by the vectors of 95_test_vectors.md -/

/-- F1 -/
theorem test_fetch_odd : regOf (step { codeData 0 0x201 [0x6B, 0xCD] with pc := 0x201 }) 11 = some 0xCD := by decide
/-- F2 -/
theorem test_fetch_top : pcOf (step ({ State.reset with pc := 0xFFE }.withFetchWord 16 0x6000)) = some 0x1000 := by decide
/-- F3 -/
theorem test_fetch_past_end : faultIn (step { State.reset with pc := 0xFFF }) = some (.outOfBounds 0xFFF) := by decide
/-- F5 -/
theorem test_reset_memory_is_illegal : faultIn (step State.reset) = some (.unknownOpcode 0x0000) := by decide
/-- T1, with sp = 1 -/
theorem test_ret : pcOf (step { code 0x00EE with sp := 1, stack := State.reset.stack.set 0 0xABC }) = some 0xABC := by decide
/-- T2 -/
theorem test_ret_empty : faultIn (step (code 0x00EE)) = some .stackUnderflow := by decide
/-- S10 -/
theorem test_jp : pcOf (step (code 0x1234)) = some 0x234 := by decide
/-- T9 at 0x200 -/
theorem test_call : (match step (code 0x2300) with | .next u => some (u.pc, u.sp, u.stack[0]) | .fault _ | .refused _ => none) = some (0x300, 1, 0x202) := by decide
/-- T8 -/
theorem test_call_full : faultIn (step { code 0x2ABC with sp := 16 }) = some .stackOverflow := by decide
/-- T10 -/
theorem test_se_imm : pcOf (step ((code 0x332A).setReg 3 0x2A)) = some 0x204 := by decide
/-- T11 -/
theorem test_sne_imm : pcOf (step ((code 0x432A).setReg 3 0x2A)) = some 0x202 := by decide
/-- T12 -/
theorem test_se_reg : pcOf (step (((code 0x5120).setReg 1 7).setReg 2 8)) = some 0x202 := by decide
/-- T14 -/
theorem test_sne_reg : pcOf (step (((code 0x9120).setReg 1 7).setReg 2 8)) = some 0x204 := by decide
/-- T18 -/
theorem test_jp_v0 : pcOf (step ((code 0xBFFF).setReg 0 0xFF)) = some 0x10FE := by decide
/-- A1 -/
theorem test_ld_imm : regOf (step (code 0x6FAB)) 15 = some 0xAB := by decide
/-- A2 -/
theorem test_add_imm_wraps : regFlag (step ((code 0x7102).setReg 1 0xFF)) 1 = some (0x01, 0) := by decide
/-- A4 -/
theorem test_ld_reg : regOf (step ((code 0x8120).setReg 2 0x7E)) 1 = some 0x7E := by decide
/-- A5 -/
theorem test_or : regFlag (step ((((code 0x8121).setReg 1 0xF0).setReg 2 0x3C).setReg 15 1)) 1 = some (0xFC, 1) := by decide
/-- A6 -/
theorem test_and : regFlag (step ((((code 0x8122).setReg 1 0xF0).setReg 2 0x3C).setReg 15 1)) 1 = some (0x30, 1) := by decide
/-- A7 -/
theorem test_xor : regFlag (step ((((code 0x8123).setReg 1 0xF0).setReg 2 0x3C).setReg 15 1)) 1 = some (0xCC, 1) := by decide
/-- A9 -/
theorem test_add_carry : regFlag (step (((code 0x8124).setReg 1 0xC8).setReg 2 0x64)) 1 = some (0x2C, 1) := by decide
/-- A15 -/
theorem test_add_flag_wins : regOf (step (((code 0x8F14).setReg 15 0x01).setReg 1 0x02)) 15 = some 0 := by decide
/-- A17, S3 -/
theorem test_sub_borrow : regFlag (step (((code 0x8125).setReg 1 0x05).setReg 2 0x0A)) 1 = some (0xFB, 0) := by decide
/-- A19 -/
theorem test_sub_equal : regFlag (step (((code 0x8125).setReg 1 0x07).setReg 2 0x07)) 1 = some (0, 1) := by decide
/-- A28 -/
theorem test_shr_ignores_y : regFlag (step (((code 0x8126).setReg 1 0x04).setReg 2 0xFF)) 1 = some (0x02, 0) := by decide
/-- A29 -/
theorem test_shr_flag_wins : regOf (step ((code 0x8F06).setReg 15 0x03)) 15 = some 1 := by decide
/-- A32 -/
theorem test_subn : regFlag (step (((code 0x8127).setReg 1 0x0A).setReg 2 0x05)) 1 = some (0xFB, 0) := by decide
/-- A35 -/
theorem test_shl : regFlag (step ((code 0x810E).setReg 1 0x81)) 1 = some (0x02, 1) := by decide
/-- A41: whatever the draw. -/
theorem test_rnd_mask_0 : regOf (step (code 0xC300)) 3 = some 0 := by
  exact congrArg some (BitVec.and_zero (x := Config.randomByte 0))
/-- M1 -/
theorem test_ld_i : iOf (step (code 0xA2F0)) = some 0x2F0 := by decide
/-- M4 -/
theorem test_add_i : iOf (step ({ code 0xF21E with i := 0xF00 }.setReg 2 0xFF)) = some 0xFFF := by decide
/-- M7 -/
theorem test_add_i_out : faultIn (step ({ code 0xF21E with i := 0xF80 }.setReg 2 0xFF)) = some (.outOfBounds 0x107F) := by decide
/-- M8 -/
theorem test_ld_f : iOf (step ((code 0xF429).setReg 4 0x1A)) = some 0x82 := by decide
/-- M11 -/
theorem test_ld_b : bytesOf (step ({ code 0xF033 with i := 0xFFD }.setReg 0 0x7B)) 0xFFD 3 = some [1, 2, 3] := by decide
/-- M12 -/
theorem test_ld_b_out : faultIn (step { code 0xF033 with i := 0xFFE }) = some (.outOfBounds 0x1000) := by decide
/-- M13 -/
theorem test_dump : bytesOf (step ((((({ code 0xF255 with i := 0x400 }.setReg 0 0x11).setReg 1 0x22).setReg 2 0x33).setReg 3 0x44))) 0x400 4 =
    some [0x11, 0x22, 0x33, 0] := by decide
/-- M16 -/
theorem test_dump_out : faultIn (step { code 0xFF55 with i := 0xFF1 }) = some (.outOfBounds 0x1000) := by decide
/-- M20 -/
theorem test_load : regOf (step (codeData 0xF165 0xFFE [0xDE, 0xAD])) 1 = some 0xAD := by decide
/-- M19 -/
theorem test_load_out : faultIn (step { code 0xFF65 with i := 0xFF1 }) = some (.outOfBounds 0x1000) := by decide
/-- K2 -/
theorem test_skp : pcOf (step ({ code 0xE29E with key := State.reset.key.set 5 true }.setReg 2 0x15)) = some 0x204 := by decide
/-- K3 -/
theorem test_sknp : pcOf (step ({ code 0xE2A1 with key := State.reset.key.set 5 true }.setReg 2 0x05)) = some 0x202 := by decide
/-- K4 at 0x200 -/
theorem test_key_wait_entry : (match step { code 0xF30A with key := State.reset.key.set 7 true } with
    | .next u => some (u.wait, u.kprev[7], u.pc) | .fault _ | .refused _ => none) = some (some 3, true, 0x202) := by decide
/-- K8 -/
theorem test_key_wait_lowest : regOf (step { State.reset with wait := some 3, key := (State.reset.key.set 9 true).set 2 true }) 3 = some 2 := by decide
/-- K5 -/
theorem test_key_wait_held : (match step { State.reset with wait := some 3, key := State.reset.key.set 7 true, kprev := State.reset.key.set 7 true } with
    | .next u => some u.wait | .fault _ | .refused _ => none) = some (some 3) := by decide
/-- K12 -/
theorem test_ld_vx_dt : regOf (step { code 0xF507 with dt := 0x3C }) 5 = some 0x3C := by decide
/-- K13 -/
theorem test_ld_dt_vx : (match step ((code 0xF515).setReg 5 0x3C) with | .next u => some u.dt | .fault _ | .refused _ => none) = some 0x3C := by decide
/-- K14 -/
theorem test_ld_st_vx : (match step ((code 0xF118).setReg 1 0x02) with | .next u => some (u.st, soundOutput u) | .fault _ | .refused _ => none) =
    some (2, true) := by decide
/-- S7 -/
theorem test_tick : (match step { State.reset with pending := [.tick], dt := 2, st := 0 } with
    | .next u => some (u.dt, u.st, u.pending) | .fault _ | .refused _ => none) = some (1, 0, []) := by decide

/-- The set pixels of a row of the grid after an answer. -/
def rowOfPixels (o : Answer) (r : Fin 32) : Option (List (Fin 64)) :=
  match o with
  | .next t => some ((List.finRange 64).filter fun c => pixel t.fb r c)
  | .fault _ | .refused _ => none

/-- S4: a sprite at column 63 wraps into column 0. -/
theorem test_drw_wraps : rowOfPixels (step ((codeData 0xD011 0x300 [0xC0]).setReg 0 63)) 0 = some [0, 63] := by
  decide +kernel
/-- D5: one pixel set, one cleared, collision. -/
theorem test_drw_collides : (rowOfPixels (step { codeData 0xD011 0x300 [0xC0] with fb := setPixel State.reset.fb 0 1 true }) 0,
    regOf (step { codeData 0xD011 0x300 [0xC0] with fb := setPixel State.reset.fb 0 1 true }) 15) = (some [0], some 1) := by
  decide +kernel
/-- D9: the second sprite row lies past `0xFFF`. -/
theorem test_drw_out : faultIn (step { code 0xD012 with i := 0xFFF }) = some (.outOfBounds 0x1000) := by decide +kernel
/-- D1: `CLS` clears a set pixel. -/
theorem test_cls : rowOfPixels (step { code 0x00E0 with fb := setPixel State.reset.fb 31 63 true }) 31 = some [] := by
  decide +kernel
/-- 45_host_operations.md R226: glyph `A` at `0x082`. -/
theorem test_font_glyph_A : bytesOf (applyEvent .loadFont State.reset) 0x082 5 = some [0xF0, 0x90, 0xF0, 0x90, 0x90] := by
  decide +kernel

/-! ### Witnesses: states and operands that meet the hypotheses of the statements -/

theorem witness_DecodeEncodeRoundTrip : Instr.wellFormed (.drw 15 0 15) = true := by decide
theorem witness_EncodeDecodeRoundTrip : decode 0x812E = some (.shl 1 2) := by decide
theorem witness_StepRunsDecodedInstruction :
    (code 0x6012).wait = none ∧ nextEvent (code 0x6012) = .cycle ∧ (code 0x6012).pc.toNat < 4095 ∧
    decodeBytes [memGet (code 0x6012).mem 0x200, memGet (code 0x6012).mem 0x201] = .instr (.ldImm 0 0x12) := by decide
theorem witness_FetchTakesTheWordAtPc_bounds :
    State.reset.wait = none ∧ nextEvent { State.reset with pc := 4095 } = .cycle ∧
    4095 ≤ ({ State.reset with pc := 4095 } : State).pc.toNat := by decide
theorem witness_FetchTakesTheWordAtPc_illegal : ({ State.reset with pc := 4094 } : State).pc.toNat < 4095 ∧
    decode (memGet State.reset.mem 4094 ++ memGet State.reset.mem 4095) = none := by decide
theorem witness_FetchTakesTheWordAtPc_legal :
    decode (memGet (code 0x6012).mem 0x200 ++ memGet (code 0x6012).mem 0x201) = some (.ldImm 0 0x12) := by decide
theorem witness_StepKeepsInvariant : StateInv (code 0x6012) ∧ ∃ t, step (code 0x6012) = .next t :=
  ⟨⟨by decide, by decide, by decide, by decide⟩, _, rfl⟩
theorem witness_ErrorLeavesState : (afterEvent .cycle State.reset).2 = .error (.unknownOpcode 0) := by decide
theorem witness_ExactlyTheListedErrors_raises : faultOf (.ldMemVx 15) { State.reset with i := 0xFF1 } = some (.outOfBounds 4096) := by
  decide
theorem witness_ExactlyTheListedErrors_completes : faultOf (.ldMemVx 15) { State.reset with i := 0xFF0 } = none := by decide
theorem witness_FailureRepeatsUntilReload : applyEvent .cycle State.reset = .fault (.unknownOpcode 0) ∧
    ∀ e ∈ [Event.tick, .setKey 3 true, .cycle], e = .cycle ∨ e = .tick ∨ ∃ k p, e = .setKey k p :=
  ⟨rfl, by simp⟩
theorem witness_EventsWriteOnlyTheirParts : ∃ t, applyEvent .cycle (code 0x6012) = .next t := ⟨_, rfl⟩
/-- Waiting on `V3`, with no key gone down. -/
theorem witness_KeyWaitPoll_empty : ({ State.reset with wait := some 3 } : State).wait = some 3 ∧
    ∀ k : KeyIdx, ¬(State.reset.key[k.val] = true ∧ State.reset.kprev[k.val] = false) := by decide
/-- Waiting on `V3`, with keys 2 and 9 gone down. -/
theorem witness_KeyWaitPoll_down :
    ((State.reset.key.set 9 true).set 2 true)[(2 : KeyIdx).val] = true ∧ State.reset.kprev[(2 : KeyIdx).val] = false ∧
    ∀ j : KeyIdx, j < 2 → ¬(((State.reset.key.set 9 true).set 2 true)[j.val] = true ∧ State.reset.kprev[j.val] = false) := by
  decide
theorem witness_KeyWaitEnteredAndLeft_entered :
    ∃ t, applyEvent .cycle (code 0xF30A) = .next t ∧ (code 0xF30A).wait = none ∧ t.wait = some 3 := ⟨_, rfl, by decide, by decide⟩
theorem witness_KeyWaitEnteredAndLeft_left :
    ∃ t, applyEvent .reset { State.reset with wait := some 3 } = .next t ∧ t.wait ≠ some 3 := ⟨_, rfl, by decide⟩
theorem witness_LoadRomEvent_longest : (List.replicate 3584 (1 : Byte)).length ≤ 3584 := Nat.le_of_eq List.length_replicate
theorem witness_LoadRomEvent_too_long : 3584 < (List.replicate 3585 (1 : Byte)).length := by rw [List.length_replicate]; omega
theorem witness_LoadFontEvent : (79 : Nat) < font.length := by decide
theorem witness_SoundOutput : ∃ t, applyEvent .cycle ((code 0xF118).setReg 1 2) = .next t ∧
    soundOutput t ≠ soundOutput ((code 0xF118).setReg 1 2) := ⟨_, rfl, by decide⟩
/-- A stale stack entry, and a stale sample while running. -/
theorem witness_HiddenStateUnobservable :
    LooksAlike State.reset { State.reset with stack := State.reset.stack.set 0 5, kprev := State.reset.kprev.set 1 true } :=
  ⟨by intro p hp; cases p <;> simp_all [Part.Same], rfl, fun j hj => absurd hj (by simp [State.reset]),
    fun h => absurd rfl h⟩
theorem witness_HiddenStateUnobservable_fault : applyEvent .cycle State.reset = .fault (.unknownOpcode 0) := rfl
theorem witness_HiddenStateUnobservable_next : ∃ t, applyEvent .tick State.reset = .next t := ⟨_, rfl⟩
theorem witness_DrawSprite_last_byte : (1 : Nat) < 16 ∧ ({ State.reset with i := 0xFFF } : State).i.toNat + 1 ≤ 4096 := by decide
theorem witness_DrawSprite_out : (0 : Nat) < 2 ∧ 4096 < ({ State.reset with i := 0xFFF } : State).i.toNat + 2 := by decide
theorem witness_DrawTwiceRestores : (1 : Nat) < 16 ∧ State.reset.i.toNat + 1 ≤ 4096 ∧
    ∃ t, exec (.drw 0 1 1) State.reset = .next t ∧ t.reg 0 = State.reset.reg 0 ∧ t.reg 1 = State.reset.reg 1 :=
  ⟨by decide, by decide, State.setReg { State.reset with fb := (drawn 0 1 1 State.reset).1 } vF (flagByte (drawn 0 1 1 State.reset).2),
    withAccess_next State.reset 1 _ (.inr (by decide)), by decide +kernel, by decide +kernel⟩
theorem witness_ReturnPops : State.reset.sp.val = 0 ∧ 0 < ({ State.reset with sp := 1 } : State).sp.val := by decide
theorem witness_CallPushes :
    ({ State.reset with sp := 16 } : State).sp.val = 16 ∧ ({ State.reset with sp := 15 } : State).sp.val < 16 := by decide
theorem witness_CallThenReturn : State.reset.sp.val < 16 ∧ ∃ t u : State, exec (.call 0x300) State.reset = .next t ∧
    u.stack = t.stack ∧ u.sp = t.sp := ⟨by decide, _, _, execCall_next _ _ (by decide), rfl, rfl⟩
theorem witness_SkipOnKey : (5 : KeyIdx).val = ((State.reset.setReg 2 0x15).reg 2).toNat % 16 := by decide
theorem witness_AddWithCarryOut_dest : (1 : RegIdx) ≠ vF := by decide
theorem witness_SubtractWithBorrow_dest : (1 : RegIdx) ≠ vF := by decide
theorem witness_SubtractReversed_dest : (14 : RegIdx) ≠ vF := by decide
theorem witness_ShiftRight_dest : (0 : RegIdx) ≠ vF := by decide
theorem witness_ShiftLeft_dest : (14 : RegIdx) ≠ vF := by decide
theorem witness_RandomMasked : (0x0F : Byte).getLsbD 7 = false := by decide
theorem witness_AddToIndex :
    4096 ≤ ({ State.reset with i := 0xFFF }.setReg 2 1).i.toNat + ((State.reset.setReg 2 1).reg 2).toNat ∧
    ({ State.reset with i := 0xFFE }.setReg 2 1).i.toNat + ((State.reset.setReg 2 1).reg 2).toNat < 4096 := by decide
theorem witness_StoreDecimalDigits : 4096 ≤ ({ State.reset with i := 4094 } : State).i.toNat + 2 ∧
    ({ State.reset with i := 4093 } : State).i.toNat + 2 < 4096 := by decide
theorem witness_DumpRegisters : 4096 ≤ ({ State.reset with i := 0xFF1 } : State).i.toNat + (15 : RegIdx).val ∧
    ({ State.reset with i := 0xFF0 } : State).i.toNat + (15 : RegIdx).val < 4096 := by decide
theorem witness_LoadRegisters : 4096 ≤ ({ State.reset with i := 0xFFF } : State).i.toNat + (1 : RegIdx).val ∧
    ({ State.reset with i := 0xFFF } : State).i.toNat + (0 : RegIdx).val < 4096 := by decide
theorem witness_DumpThenLoad : State.reset.i.toNat + (15 : RegIdx).val < 4096 ∧
    ∃ t u : State, exec (.ldMemVx 15) State.reset = .next t ∧ u.mem = t.mem ∧ u.i = State.reset.i :=
  ⟨by decide, State.reset.storeAtI (State.reset.regBlock 15), State.reset.storeAtI (State.reset.regBlock 15),
    withAccess_next State.reset 16 _ (.inr (by decide)), rfl, rfl⟩
/-- The highest base of a dump, of the decimal digits, and the longest ROM. -/
theorem witness_StoredBytesAreFetched : ({ State.reset with i := 0xFF0 } : State).i.toNat + (15 : RegIdx).val < 4096 ∧
    ({ State.reset with i := 4093 } : State).i.toNat + 2 < 4096 ∧ (List.replicate 3584 (1 : Byte)).length ≤ 3584 :=
  ⟨by decide, by decide, Nat.le_of_eq List.length_replicate⟩
/-- A fetch can succeed at the last byte before a block at `0x300`, so that its word straddles the edge. -/
theorem witness_StoredBytesAreFetched_fetch : (0x2FF : Word).toNat < 4095 ∧ (4094 : Word).toNat < 4095 := by decide
/-- Why `SoundOutput` asks for `Running`: a wait can stand before `LD ST,Vx`, whose `CYCLE` then runs nothing. -/
theorem test_poll_runs_no_instruction : (match step { code 0xF018 with wait := some 1, st := 2 } with
    | .next u => some (soundOutput u, u.pc) | .fault _ | .refused _ => none) = some (true, 0x200) := by decide

end Sys2Proof.Tests
end

section
/-! The fetch (20_memory.md R65): what a step of a running engine does, by `pc` and the word there. -/

namespace Sys2Proof.Machine

/-- A step whose event is `CYCLE`, with no key-wait under way, runs one instruction (45_host_operations.md R223). -/
theorem step_running {s : State} (hwait : s.wait = none) (hnext : nextEvent s = .cycle) :
    step s = runInstruction (takeEvent s) := by
  unfold step
  rw [hnext]
  exact cycle_running hwait

/-- Settles O7: the step is `runInstruction`, whose three cases are the three clauses, `pc` and memory being the same
after the event is taken. -/
theorem fetchTakesTheWordAtPc : Obligations.FetchTakesTheWordAtPc := by
  intro s hwait hnext
  have hcases := runInstruction_cases (takeEvent s)
  rw [takeEvent_pc, takeEvent_mem, ← step_running hwait hnext] at hcases
  rcases hcases with ⟨hpc, -, hstep⟩ | ⟨hpc, w, hw, ⟨hdec, -, hstep⟩ | ⟨i, hdec, -, hstep⟩⟩
  · exact ⟨fun _ => hstep, fun hlt => by omega⟩
  · rw [wordOfBytes] at hw
    rw [← hw]
    exact ⟨fun hge => by omega, fun _ => ⟨fun _ => hstep, fun j hj => by simp [hdec] at hj⟩⟩
  · rw [wordOfBytes] at hw
    rw [← hw]
    refine ⟨fun hge => by omega, fun _ => ⟨fun hnone => by simp [hdec] at hnone, fun j hj => ?_⟩⟩
    obtain rfl : i = j := Option.some.inj (hdec.symm.trans hj)
    exact hstep

end Sys2Proof.Machine
end

section
/-! Control transfer (40_flow.md): jumps, the call stack and the skips, each by its word, its `pc` and its frame. -/

namespace Sys2Proof.Machine

/-! ### The words of the flow instructions (30_encoding.md R96) -/

theorem decode_jp (nnn : Imm12) : decode (formatNNN 0x1 nnn) = some (.jp nnn) := by simp [decode]

theorem decode_call (nnn : Imm12) : decode (formatNNN 0x2 nnn) = some (.call nnn) := by simp [decode]

theorem decode_seImm (x : RegIdx) (nn : Byte) : decode (formatXNN 0x3 x nn) = some (.seImm x nn) := by simp [decode]

theorem decode_sneImm (x : RegIdx) (nn : Byte) : decode (formatXNN 0x4 x nn) = some (.sneImm x nn) := by simp [decode]

theorem decode_seReg (x y : RegIdx) : decode (formatXYN 0x5 x y 0) = some (.seReg x y) := by simp [decode]

theorem decode_sneReg (x y : RegIdx) : decode (formatXYN 0x9 x y 0) = some (.sneReg x y) := by simp [decode]

/-! ### Jumps and the call stack -/

theorem setPc_keeps (s : State) (target : Word) : KeepsAllBut [.pc] s { s with pc := target } := by
  intro p hp; cases p <;> simp_all [Part.Same]

theorem setPcSp_keeps (s : State) (target : Word) (n : Fin 17) :
    KeepsAllBut [.pc, .sp] s { s with pc := target, sp := n } := by
  intro p hp; cases p <;> simp_all [Part.Same]

theorem setPcStackSp_keeps (s : State) (target : Word) (entries : Vector Word 16) (n : Fin 17) :
    KeepsAllBut [.pc, .stack, .sp] s { s with pc := target, stack := entries, sp := n } := by
  intro p hp; cases p <;> simp_all [Part.Same]

/-- Settles O33: the target is the zero-extended field, so its value is the field's. -/
theorem jumpAbsolute : Obligations.JumpAbsolute :=
  fun nnn s => ⟨decode_jp nnn, { s with pc := addressOf nnn }, rfl, toNat_addressOf nnn, setPc_keeps s _⟩

/-- Settles O30: a pop answers by whether an entry is in use, and the entry it takes is the one at `sp - 1`. -/
theorem returnPops : Obligations.ReturnPops := by
  refine ⟨by decide, fun s => ⟨execRet_fault s, fun hsp => ⟨_, execRet_next s hsp, rfl, ?_, setPcSp_keeps s _ _⟩⟩⟩
  intro j hj
  simp only [hj]

/-- Settles O31: a push answers by whether an entry is free, and writes the entry at the old `sp` only. -/
theorem callPushes : Obligations.CallPushes := by
  refine fun nnn s => ⟨decode_call nnn, execCall_fault nnn s, fun hsp =>
    ⟨_, execCall_next nnn s hsp, rfl, toNat_addressOf nnn, ?_, setPcStackSp_keeps s _ _ _⟩⟩
  intro j
  simp only [Vector.getElem_set, eq_comm]

/-! ### Skips (R121) -/

/-- A skip on a Boolean test that decides `cond` completes, moves `pc` by 2 exactly where `cond` holds, and changes
nothing else. -/
theorem next_skipIf (s : State) {test : Bool} {cond : Prop} [Decidable cond] (h : test = true ↔ cond) :
    ∃ t, (.next (s.skipIf test) : Answer) = .next t ∧ KeepsAllBut [.pc] s t ∧
      t.pc = if cond then s.pc + 2 else s.pc :=
  ⟨_, rfl, skipIf_keeps s test, by simp only [skipIf_pc, h]⟩

/-- Settles O35: the tests of `SE` and `SNE` decide equality and inequality with the immediate. -/
theorem skipOnImmediate : Obligations.SkipOnImmediate :=
  fun x nn s => ⟨decode_seImm x nn, decode_sneImm x nn, next_skipIf s beq_iff_eq, next_skipIf s bne_iff_ne⟩

/-- Settles O36: the tests of `SE` and `SNE` decide equality and inequality of the two registers. -/
theorem skipOnRegisters : Obligations.SkipOnRegisters :=
  fun x y s => ⟨decode_seReg x y, decode_sneReg x y, next_skipIf s beq_iff_eq, next_skipIf s bne_iff_ne⟩

end Sys2Proof.Machine
end

section
/-! Immediate load and register arithmetic (41_alu.md): each instruction by its word, its result, its flag and its
frame. -/

namespace Sys2Proof.Machine

/-! ### The words of the arithmetic instructions (30_encoding.md R96) -/

theorem decode_ldImm (x : RegIdx) (nn : Byte) : decode (formatXNN 0x6 x nn) = some (.ldImm x nn) := by simp [decode]

/-- Major opcode `0x8` is decided on the last nibble (R94). -/
theorem decode_formatXYN_op8 (x y : RegIdx) (n : BitVec 4) : decode (formatXYN 0x8 x y n) = decodeOp8 n x y := by
  simp [decode]

/-! ### Immediate load (R141) -/

/-- Settles O38: the load is one register write. -/
theorem loadImmediate : Obligations.LoadImmediate :=
  fun x nn s => ⟨decode_ldImm x nn, s.setReg x nn, rfl, reg_setReg_same s x nn, setReg_regs s x nn, setReg_keeps s x nn⟩

/-! ### Result and flag (R140) -/

theorem toNat_flagByte_carryOut (a b : Byte) :
    (flagByte (carryOut a b)).toNat = if 255 < a.toNat + b.toNat then 1 else 0 := by
  simp only [toNat_flagByte, carryOut, decide_eq_true_eq]

theorem toNat_flagByte_noBorrow (a b : Byte) :
    (flagByte (noBorrow a b)).toNat = if b.toNat ≤ a.toNat then 1 else 0 := by
  simp only [toNat_flagByte, noBorrow, decide_eq_true_eq]

/-- A flag-producing instruction completes with its result in `V[x]`, unless that is `VF`, and with its flag in `VF`
whatever `x` is; it changes nothing else. -/
theorem next_setRegFlag (s : State) (x : RegIdx) {result : Byte} {flag : Bool} {r f : Nat}
    (hresult : result.toNat = r) (hflag : (flagByte flag).toNat = f) :
    ∃ t, (.next (s.setRegFlag x result flag) : Answer) = .next t ∧ (x ≠ vF → (t.reg x).toNat = r) ∧
      (t.reg vF).toNat = f ∧ RegsKeptBut [x, vF] s t ∧ KeepsAllBut [.v] s t := by
  refine ⟨_, rfl, fun hx => ?_, ?_, setRegFlag_regs s x result flag, setRegFlag_keeps s x result flag⟩
  · rw [reg_setRegFlag_dest s result flag hx, hresult]
  · rw [reg_setRegFlag_vF, hflag]

/-- Settles O42: result and flag are the sum modulo 256 and its carry. -/
theorem addWithCarryOut : Obligations.AddWithCarryOut :=
  fun x y s => ⟨decode_formatXYN_op8 x y 0x4,
    next_setRegFlag s x (toNat_addResult (s.reg x) (s.reg y)) (toNat_flagByte_carryOut (s.reg x) (s.reg y))⟩

/-- Settles O43: result and flag are those of the difference, with `Vx` the minuend. -/
theorem subtractWithBorrow : Obligations.SubtractWithBorrow :=
  fun x y s => ⟨decode_formatXYN_op8 x y 0x5,
    next_setRegFlag s x (toNat_subResult (s.reg x) (s.reg y)) (toNat_flagByte_noBorrow (s.reg x) (s.reg y))⟩

/-- Settles O44: result and flag are those of the difference, with `Vy` the minuend. -/
theorem subtractReversed : Obligations.SubtractReversed :=
  fun x y s => ⟨decode_formatXYN_op8 x y 0x7,
    next_setRegFlag s x (toNat_subResult (s.reg y) (s.reg x)) (toNat_flagByte_noBorrow (s.reg y) (s.reg x))⟩

end Sys2Proof.Machine
end

section
/-! Index register and memory (42_index_memory.md): each instruction by its word, the `I` it leaves and its frame. -/

namespace Sys2Proof.Machine

theorem decode_ldI (nnn : Imm12) : decode (formatNNN 0xA nnn) = some (.ldI nnn) := by simp [decode]

theorem setI_keeps (s : State) (value : Word) : KeepsAllBut [.i] s { s with i := value } := by
  intro p hp; cases p <;> simp_all [Part.Same]

/-- Settles O48: `I` becomes the zero-extended field, so its value is the field's. -/
theorem setIndex : Obligations.SetIndex :=
  fun nnn s => ⟨decode_ldI nnn, { s with i := addressOf nnn }, rfl, toNat_addressOf nnn, setI_keeps s _⟩

end Sys2Proof.Machine
end

section
/-! Clearing the framebuffer (43_display.md R191): the word of `CLS`, the grid it leaves and its frame. -/

namespace Sys2Proof.Machine

theorem decode_cls : decode 0x00E0 = some .cls := by decide

theorem setFb_keeps (s : State) (g : Grid) : KeepsAllBut [.fb] s { s with fb := g } := by
  intro p hp; cases p <;> simp_all [Part.Same]

/-- Settles O27: the grid becomes `clearGrid`, whose pixels are all unset. -/
theorem clearScreen : Obligations.ClearScreen :=
  ⟨decode_cls, fun s => ⟨{ s with fb := clearGrid }, rfl, pixel_clearGrid, setFb_keeps s _⟩⟩

end Sys2Proof.Machine
end

section
/-! The timer instructions (44_keypad_timers.md): each by its word, the one part it writes and its frame. -/

namespace Sys2Proof.Machine

/-- Major opcode `0xF` is decided on the low byte (30_encoding.md R94). -/
theorem decode_formatX_opF (x : RegIdx) (minor : Byte) : decode (formatX 0xF x minor) = decodeOpF minor x := by
  rw [formatX_eq]
  simp [decode]

theorem setDt_keeps (s : State) (b : Byte) : KeepsAllBut [.dt] s { s with dt := b } := by
  intro p hp; cases p <;> simp_all [Part.Same]

theorem setSt_keeps (s : State) (b : Byte) : KeepsAllBut [.st] s { s with st := b } := by
  intro p hp; cases p <;> simp_all [Part.Same]

/-- `SOUND` is 1 exactly while the sound timer is above 0 (45_host_operations.md R229). -/
theorem soundOutput_iff (s : State) : soundOutput s = true ↔ 0 < s.st.toNat := decide_eq_true_iff

/-- Settles O56: the read is one register write. -/
theorem delayTimerGet : Obligations.DelayTimerGet :=
  fun x s => ⟨decode_formatX_opF x 0x07, s.setReg x s.dt, rfl, reg_setReg_same s x _, setReg_regs s x _,
    setReg_keeps s x _⟩

/-- Settles O57: the delay timer takes the register's value, and no other part is written. -/
theorem delayTimerSet : Obligations.DelayTimerSet :=
  fun x s => ⟨decode_formatX_opF x 0x15, { s with dt := s.reg x }, rfl, rfl, setDt_keeps s _⟩

/-- Settles O58: the sound timer takes the register's value, and `SOUND` depends on that timer alone. -/
theorem soundTimerSet : Obligations.SoundTimerSet :=
  fun x s => ⟨decode_formatX_opF x 0x18, { s with st := s.reg x }, rfl, rfl, soundOutput_iff _, setSt_keeps s _⟩

end Sys2Proof.Machine
end

section
/-! `SOUND` (45_host_operations.md R229): the parts an instruction writes (10_state.md R32), and from them which events
can change the sound timer. -/

namespace Sys2Proof.Machine

/-! ### Answers taken apart -/

/-- An access at `I` that completes ends in the state it was given. -/
theorem eq_of_withAccess_next {s t u : State} {count : Nat} (h : withAccess s count t = .next u) : t = u := by
  rcases withAccess_cases s count t with ⟨-, -, hfault⟩ | ⟨-, hnext⟩
  · simp [hfault] at h
  · exact Host.Outcome.next.inj (hnext.symm.trans h)

/-- An instruction cycle that completes has fetched an instruction and run it (R223). -/
theorem runInstruction_next {s t : State} (h : runInstruction s = .next t) :
    ∃ i, decodeBytes (fetchBytes s) = .instr i ∧ exec i s.advance = .next t := by
  rcases runInstruction_cases s with ⟨-, -, hfault⟩ | ⟨-, w, -, ⟨-, -, hfault⟩ | ⟨i, -, hdec, hexec⟩⟩
  · simp [hfault] at h
  · simp [hfault] at h
  · exact ⟨i, hdec, hexec.symm.trans h⟩

/-! ### What an instruction writes -/

theorem setWaitKprev_keeps (s : State) (w : Option RegIdx) (sample : Vector Bool 16) :
    KeepsAllBut [.wait, .kprev] s { s with wait := w, kprev := sample } := by
  intro p hp; cases p <;> simp_all [Part.Same]

theorem drawByte_keeps (s : State) : KeepsAllBut [.draws] s (drawByte s).2 := by
  intro p hp; cases p <;> simp_all [Part.Same]

theorem drawByte_setReg_keeps (s : State) (x : RegIdx) (b : Byte) :
    KeepsAllBut [.v, .draws] s ((drawByte s).2.setReg x b) :=
  ((drawByte_keeps s).mono (by simp)).trans ((setReg_keeps _ x b).mono (by simp))

theorem setFb_setReg_keeps (s : State) (g : Grid) (x : RegIdx) (b : Byte) :
    KeepsAllBut [.v, .fb] s ({ s with fb := g }.setReg x b) :=
  ((setFb_keeps s g).mono (by simp)).trans ((setReg_keeps _ x b).mono (by simp))

theorem execRet_keeps {s t : State} (h : exec .ret s = .next t) : KeepsAllBut [.pc, .sp] s t := by
  rcases Nat.eq_zero_or_pos s.sp.val with hsp | hsp
  · simp [execRet_fault s hsp] at h
  · obtain rfl := Host.Outcome.next.inj ((execRet_next s hsp).symm.trans h)
    exact setPcSp_keeps s _ _

theorem execCall_keeps {nnn : Imm12} {s t : State} (h : exec (.call nnn) s = .next t) :
    KeepsAllBut [.pc, .stack, .sp] s t := by
  rcases Nat.lt_or_ge s.sp.val 16 with hsp | hsp
  · obtain rfl := Host.Outcome.next.inj ((execCall_next nnn s hsp).symm.trans h)
    exact setPcStackSp_keeps s _ _ _
  · simp [execCall_fault nnn s (by omega)] at h

theorem execAddI_keeps {x : RegIdx} {s t : State} (h : exec (.addI x) s = .next t) : KeepsAllBut [.i] s t := by
  rcases execAddI_cases x s with ⟨-, hfault⟩ | ⟨-, hnext⟩
  · simp [hfault] at h
  · obtain rfl := Host.Outcome.next.inj (hnext.symm.trans h)
    exact setI_keeps s _

/-- An instruction that completes writes only the parts of its row of the access table (R32). -/
theorem exec_keeps {i : Instr} {s t : State} (h : exec i s = .next t) : KeepsAllBut (writesOf i) s t := by
  cases i with
  | cls => obtain rfl := Host.Outcome.next.inj h; exact setFb_keeps s _
  | ret => exact execRet_keeps h
  | call nnn => exact execCall_keeps h
  | jp nnn | jpV0 nnn => obtain rfl := Host.Outcome.next.inj h; exact setPc_keeps s _
  | seImm x nn | sneImm x nn | seReg x y | sneReg x y | skp x | sknp x =>
    obtain rfl := Host.Outcome.next.inj h; exact skipIf_keeps s _
  | ldImm x nn | addImm x nn | ldReg x y | orReg x y | andReg x y | xorReg x y | ldVxDt x =>
    obtain rfl := Host.Outcome.next.inj h; exact setReg_keeps s x _
  | addReg x y | subReg x y | shr x y | subnReg x y | shl x y =>
    obtain rfl := Host.Outcome.next.inj h; exact setRegFlag_keeps s x _ _
  | rnd x nn => obtain rfl := Host.Outcome.next.inj h; exact drawByte_setReg_keeps s x _
  | drw x y n => obtain rfl := eq_of_withAccess_next h; exact setFb_setReg_keeps s _ vF _
  | ldI nnn | ldF x => obtain rfl := Host.Outcome.next.inj h; exact setI_keeps s _
  | addI x => exact execAddI_keeps h
  | ldVxK x => obtain rfl := Host.Outcome.next.inj h; exact setWaitKprev_keeps s _ _
  | ldDtVx x => obtain rfl := Host.Outcome.next.inj h; exact setDt_keeps s _
  | ldStVx x => obtain rfl := Host.Outcome.next.inj h; exact setSt_keeps s _
  | ldB x | ldMemVx x => obtain rfl := eq_of_withAccess_next h; exact storeAtI_keeps s _
  | ldVxMem x => obtain rfl := eq_of_withAccess_next h; exact loadBlock_keeps s x

/-! ### Who changes the sound timer -/

/-- `LD ST,Vx` is the only instruction whose row of the access table names `ST`. -/
theorem st_mem_writesOf {i : Instr} (h : .st ∈ writesOf i) : ∃ x, i = .ldStVx x := by
  cases i <;> simp_all [writesOf]

/-- An instruction that changes `ST` is `LD ST,Vx`. -/
theorem eq_ldStVx_of_exec_st_ne {i : Instr} {s t : State} (h : exec i s = .next t) (hst : t.st ≠ s.st) :
    ∃ x, i = .ldStVx x :=
  st_mem_writesOf (Decidable.byContradiction fun hmem => hst (exec_keeps h .st hmem))

/-- A `CYCLE` that changes `ST` runs `LD ST,Vx`: the key-wait poll leaves the timer alone. -/
theorem runs_ldStVx_of_cycle_st_ne {s t : State} (h : cycle s = .next t) (hst : t.st ≠ s.st) :
    s.wait = none ∧ ∃ x, decodeBytes (fetchBytes s) = .instr (.ldStVx x) := by
  cases hwait : s.wait with
  | some x =>
    obtain rfl := Host.Outcome.next.inj ((cycle_waiting hwait).symm.trans h)
    exact absurd (pollKeys_st x s) hst
  | none =>
    obtain ⟨i, hdec, hexec⟩ := runInstruction_next ((cycle_running hwait).symm.trans h)
    obtain ⟨x, rfl⟩ := eq_ldStVx_of_exec_st_ne hexec hst
    exact ⟨rfl, x, hdec⟩

theorem hostLoadRom_st {bytes : List Byte} {s t : State} (h : hostLoadRom bytes s = .next t) : t.st = s.st := by
  unfold hostLoadRom raise at h
  split at h
  · simp at h
  · obtain rfl := Host.Outcome.next.inj h
    rfl

/-- `SOUND` depends on the sound timer alone. -/
theorem soundOutput_congr {s t : State} (h : t.st = s.st) : soundOutput t = soundOutput s := by
  rw [soundOutput, soundOutput, h]

/-- Settles O24: where `SOUND` changes, `ST` has changed, and no event but those three writes `ST`. -/
theorem soundOutput_changes : Obligations.SoundOutput := by
  refine ⟨soundOutput_iff, fun e s t h hsound => ?_⟩
  have hst : t.st ≠ s.st := fun heq => hsound (soundOutput_congr heq)
  cases e with
  | tick => exact .inl rfl
  | reset => exact .inr (.inl rfl)
  | cycle => exact .inr (.inr ⟨rfl, runs_ldStVx_of_cycle_st_ne h hst⟩)
  | loadRom bytes => exact absurd (hostLoadRom_st h) hst
  | loadFont =>
    obtain rfl := Host.Outcome.next.inj h
    exact absurd (hostLoadFont_st s) hst
  | setKey k p =>
    obtain rfl := Host.Outcome.next.inj h
    exact absurd (hostSetKey_st k p s) hst

end Sys2Proof.Machine
end

section
/-! The event `RESET` (45_host_operations.md R221): the reset value of each piece (70_reset_and_hazards.md R270),
the frame, and the fetch that follows. -/

namespace Sys2Proof.Machine

/-! ### The state that `RESET` leaves -/

theorem hostReset_memGet (s : State) (a : Nat) : memGet (hostReset s).mem a = 0 := rfl

theorem hostReset_reg (s : State) (k : RegIdx) : (hostReset s).reg k = 0 := by
  simp [State.reg, State.reset]

theorem hostReset_stackEntry (s : State) (j : Fin 16) : (hostReset s).stack[j.val] = 0 := by
  simp [State.reset]

theorem hostReset_keyLevel (s : State) (k : KeyIdx) : (hostReset s).key[k.val] = false := by
  simp [State.reset]

theorem hostReset_keySample (s : State) (k : KeyIdx) : (hostReset s).kprev[k.val] = false := by
  simp [State.reset]

theorem hostReset_pixel (s : State) (r : Fin 32) (c : Fin 64) : pixel (hostReset s).fb r c = false :=
  pixel_clearGrid r c

theorem hostReset_keeps (s : State) : KeepsAllBut (eventWrites .reset s) s (hostReset s) := by
  intro p hp; cases p <;> simp_all [Part.Same, eventWrites]

/-! ### The `CYCLE` after it -/

/-- After `RESET` the word at `pc` is 0, which is no instruction (R95). -/
theorem cycle_hostReset (s : State) : cycle (hostReset s) = .fault (.unknownOpcode 0) := by
  have hfetch : fetchBytes (hostReset s) = [0, 0] := by
    rw [fetchBytes_inside (hostReset s) (by rw [hostReset_pc]; decide), hostReset_memGet, hostReset_memGet]
  have hdec : decodeBytes [0, 0] = .unknownOpcode 0 := by decide
  rw [cycle_running (hostReset_wait s), runInstruction, hfetch, hdec]
  rfl

/-- Settles O8: each clause is a law of the state `hostReset s`. -/
theorem resetEvent : Obligations.ResetEvent :=
  fun s => ⟨hostReset s, rfl, hostReset_memGet s, hostReset_reg s, hostReset_i s, hostReset_pc s, hostReset_stackEntry s,
    hostReset_sp s, hostReset_dt s, hostReset_st s, hostReset_keyLevel s, hostReset_keySample s, hostReset_wait s,
    hostReset_pixel s, hostReset_keeps s, cycle_hostReset s⟩

end Sys2Proof.Machine
end

section
/-! Decoder and encoder (30_encoding.md): each is the inverse of the other, the decoder agrees with the opcode table,
and the words that it rejects. -/

namespace Sys2Proof.Machine

/-! ### The words of the remaining formats (R96) -/

theorem decode_addImm (x : RegIdx) (nn : Byte) : decode (formatXNN 0x7 x nn) = some (.addImm x nn) := by simp [decode]

theorem decode_jpV0 (nnn : Imm12) : decode (formatNNN 0xB nnn) = some (.jpV0 nnn) := by simp [decode]

theorem decode_rnd (x : RegIdx) (nn : Byte) : decode (formatXNN 0xC x nn) = some (.rnd x nn) := by simp [decode]

theorem decode_drw (x y : RegIdx) (n : BitVec 4) : decode (formatXYN 0xD x y n) = some (.drw x y n.toNat) := by
  simp [decode]

/-- Major opcode `0xE` is decided on the low byte (R94). -/
theorem decode_formatX_opE (x : RegIdx) (minor : Byte) : decode (formatX 0xE x minor) = decodeOpE minor x := by
  rw [formatX_eq]
  simp [decode]

/-! ### Decoding an encoded instruction -/

/-- The decoder gives back a well-formed instruction from its word. -/
theorem decode_encode {i : Instr} (hi : i.wellFormed = true) : decode (encode i) = some i := by
  cases i with
  | cls | ret => decide
  | jp nnn => exact decode_jp nnn
  | call nnn => exact decode_call nnn
  | ldI nnn => exact decode_ldI nnn
  | jpV0 nnn => exact decode_jpV0 nnn
  | seImm x nn => exact decode_seImm x nn
  | sneImm x nn => exact decode_sneImm x nn
  | ldImm x nn => exact decode_ldImm x nn
  | addImm x nn => exact decode_addImm x nn
  | rnd x nn => exact decode_rnd x nn
  | seReg x y => exact decode_seReg x y
  | sneReg x y => exact decode_sneReg x y
  | ldReg x y | orReg x y | andReg x y | xorReg x y | addReg x y | subReg x y | shr x y | subnReg x y | shl x y =>
    exact decode_formatXYN_op8 x y _
  | drw x y n =>
    have hn : n < 16 := of_decide_eq_true hi
    have hval : (BitVec.ofNat 4 n).toNat = n := by rw [BitVec.toNat_ofNat]; exact Nat.mod_eq_of_lt hn
    rw [encode, decode_drw, hval]
  | skp x | sknp x => exact decode_formatX_opE x _
  | ldVxDt x | ldVxK x | ldDtVx x | ldStVx x | addI x | ldF x | ldB x | ldMemVx x | ldVxMem x =>
    exact decode_formatX_opF x _

/-- The two bytes of an instruction are read as its word. -/
theorem decodeBytes_encodeBytes {i : Instr} (hi : i.wellFormed = true) : decodeBytes (encodeBytes i) = .instr i := by
  simp only [encodeBytes, decodeBytes, wordOfBytes_extract, decode_encode hi]

/-- Settles O1: each constructor's word is decoded through its format's fields. -/
theorem decodeEncodeRoundTrip : Obligations.DecodeEncodeRoundTrip :=
  fun _ hi => ⟨decode_encode hi, decodeBytes_encodeBytes hi⟩

/-! ### Encoding a decoded word -/

/-- A well-formed instruction whose word is `w`. -/
def IsInstrOf (i : Instr) (w : Word) : Prop := i.wellFormed = true ∧ encode i = w

theorem isInstrOf_decodeOp0 {w : Word} {i : Instr} (h : decodeOp0 w = some i) : IsInstrOf i w := by
  unfold decodeOp0 at h
  split_ifs at h with h1 h2
  · obtain rfl := Option.some.inj h; exact ⟨rfl, h1.symm⟩
  · obtain rfl := Option.some.inj h; exact ⟨rfl, h2.symm⟩

theorem isInstrOf_decodeOp8 {n : BitVec 4} {x y : RegIdx} {i : Instr} (h : decodeOp8 n x y = some i) :
    IsInstrOf i (formatXYN 0x8 x y n) := by
  have hn : n = BitVec.ofNat 4 n.toNat := by simp
  unfold decodeOp8 at h
  split at h
  case h_10 => simp at h
  all_goals next hk => rw [hk] at hn; obtain rfl := Option.some.inj h; rw [hn]; exact ⟨rfl, rfl⟩

theorem isInstrOf_decodeOpE {nn : Byte} {x : RegIdx} {i : Instr} (h : decodeOpE nn x = some i) :
    IsInstrOf i (formatX 0xE x nn) := by
  unfold decodeOpE at h
  split_ifs at h with h1 h2
  all_goals subst nn; obtain rfl := Option.some.inj h; exact ⟨rfl, rfl⟩

theorem isInstrOf_decodeOpF {nn : Byte} {x : RegIdx} {i : Instr} (h : decodeOpF nn x = some i) :
    IsInstrOf i (formatX 0xF x nn) := by
  unfold decodeOpF at h
  split_ifs at h
  all_goals subst nn; obtain rfl := Option.some.inj h; exact ⟨rfl, rfl⟩

/-- A word of a major opcode, in each format, with that opcode written out. -/
theorem formatNNN_of_opField {w : Word} {op : BitVec 4} (h : opField w = op) : formatNNN op (nnnField w) = w :=
  h ▸ formatNNN_fields w

theorem formatXNN_of_opField {w : Word} {op : BitVec 4} (h : opField w = op) :
    formatXNN op (xField w) (nnField w) = w :=
  h ▸ formatXNN_fields w

theorem formatXYN_of_opField {w : Word} {op : BitVec 4} (h : opField w = op) :
    formatXYN op (xField w) (yField w) (nField w) = w :=
  h ▸ formatXYN_fields w

/-- The decoder answers with an instruction whose word it was given. -/
theorem isInstrOf_decode {w : Word} {i : Instr} (h : decode w = some i) : IsInstrOf i w := by
  have hop : opField w = BitVec.ofNat 4 (opField w).toNat := by simp
  unfold decode at h
  split at h
  case h_1 => exact isInstrOf_decodeOp0 h
  case h_2 hk | h_3 hk | h_11 hk | h_12 hk =>
    rw [hk] at hop
    obtain rfl := Option.some.inj h
    exact ⟨rfl, formatNNN_of_opField hop⟩
  case h_4 hk | h_5 hk | h_7 hk | h_8 hk | h_13 hk =>
    rw [hk] at hop
    obtain rfl := Option.some.inj h
    exact ⟨rfl, formatXNN_of_opField hop⟩
  case h_6 hk | h_10 hk =>
    rw [hk] at hop
    split at h
    · next hn =>
      obtain rfl := Option.some.inj h
      refine ⟨rfl, ?_⟩
      have hw := formatXYN_of_opField hop
      rw [hn] at hw
      exact hw
    · simp at h
  case h_9 hk =>
    rw [hk] at hop
    exact formatXYN_of_opField hop ▸ isInstrOf_decodeOp8 h
  case h_14 hk =>
    rw [hk] at hop
    obtain rfl := Option.some.inj h
    refine ⟨decide_eq_true (nField w).isLt, ?_⟩
    rw [encode, BitVec.ofNat_toNat, BitVec.setWidth_eq]
    exact formatXYN_of_opField hop
  case h_15 hk =>
    rw [hk] at hop
    exact formatXNN_of_opField hop ▸ isInstrOf_decodeOpE h
  case h_16 =>
    have hk : (opField w).toNat = 15 := by
      have := (opField w).isLt
      simp only [imp_false] at *
      omega
    rw [hk] at hop
    exact formatXNN_of_opField hop ▸ isInstrOf_decodeOpF h

/-- Settles O2: the fields from which the decoder builds an instruction are those of the word. -/
theorem encodeDecodeRoundTrip : Obligations.EncodeDecodeRoundTrip := fun _ _ h => isInstrOf_decode h

/-! ### The opcode table (R96) -/

/-- Every instruction's word matches its own row, which stands in the table. -/
theorem tableRow_statement (i : Instr) : Laws.TableRow.Statement i := by
  cases i
  case cls => exact Laws.TableRow.cls
  case ret => exact Laws.TableRow.ret
  case jp => exact Laws.TableRow.jp _
  case call => exact Laws.TableRow.call _
  case seImm => exact Laws.TableRow.seImm _ _
  case sneImm => exact Laws.TableRow.sneImm _ _
  case seReg => exact Laws.TableRow.seReg _ _
  case ldImm => exact Laws.TableRow.ldImm _ _
  case addImm => exact Laws.TableRow.addImm _ _
  case ldReg => exact Laws.TableRow.ldReg _ _
  case orReg => exact Laws.TableRow.orReg _ _
  case andReg => exact Laws.TableRow.andReg _ _
  case xorReg => exact Laws.TableRow.xorReg _ _
  case addReg => exact Laws.TableRow.addReg _ _
  case subReg => exact Laws.TableRow.subReg _ _
  case shr => exact Laws.TableRow.shr _ _
  case subnReg => exact Laws.TableRow.subnReg _ _
  case shl => exact Laws.TableRow.shl _ _
  case sneReg => exact Laws.TableRow.sneReg _ _
  case ldI => exact Laws.TableRow.ldI _
  case jpV0 => exact Laws.TableRow.jpV0 _
  case rnd => exact Laws.TableRow.rnd _ _
  case drw => exact Laws.TableRow.drw _ _ _
  case skp => exact Laws.TableRow.skp _
  case sknp => exact Laws.TableRow.sknp _
  case ldVxDt => exact Laws.TableRow.ldVxDt _
  case ldVxK => exact Laws.TableRow.ldVxK _
  case ldDtVx => exact Laws.TableRow.ldDtVx _
  case ldStVx => exact Laws.TableRow.ldStVx _
  case addI => exact Laws.TableRow.addI _
  case ldF => exact Laws.TableRow.ldF _
  case ldB => exact Laws.TableRow.ldB _
  case ldMemVx => exact Laws.TableRow.ldMemVx _
  case ldVxMem => exact Laws.TableRow.ldVxMem _

/-- The fields that a row's mask keeps are those of its pattern. -/
theorem opField_of_rowMatches {w : Word} {r : OpcodeRow} (h : rowMatches w r = true)
    (hmask : opField r.mask = BitVec.allOnes 4) : opField w = BitVec.ofNat 4 (r.pattern.toNat / 4096) := by
  rw [← toNat_opField, BitVec.ofNat_toNat, BitVec.setWidth_eq, ← beq_iff_eq.mp h]
  simp only [opField, BitVec.extractLsb'_and] at hmask ⊢
  rw [hmask, BitVec.and_allOnes]

theorem nField_of_rowMatches {w : Word} {r : OpcodeRow} (h : rowMatches w r = true)
    (hmask : nField r.mask = BitVec.allOnes 4) : nField w = BitVec.ofNat 4 (r.pattern.toNat % 16) := by
  rw [← toNat_nField, BitVec.ofNat_toNat, BitVec.setWidth_eq, ← beq_iff_eq.mp h]
  simp only [nField, BitVec.extractLsb'_and] at hmask ⊢
  rw [hmask, BitVec.and_allOnes]

theorem nnField_of_rowMatches {w : Word} {r : OpcodeRow} (h : rowMatches w r = true)
    (hmask : nnField r.mask = BitVec.allOnes 8) : nnField w = BitVec.ofNat 8 (r.pattern.toNat % 256) := by
  rw [← toNat_nnField, BitVec.ofNat_toNat, BitVec.setWidth_eq, ← beq_iff_eq.mp h]
  simp only [nnField, BitVec.extractLsb'_and] at hmask ⊢
  rw [hmask, BitVec.and_allOnes]

theorem eq_pattern_of_rowMatches {w : Word} {r : OpcodeRow} (h : rowMatches w r = true)
    (hmask : r.mask = BitVec.allOnes 16) : w = r.pattern := by
  rw [← beq_iff_eq.mp h, hmask, BitVec.and_allOnes]

/-- A word that matches the row of an instruction decodes to an instruction of that row. -/
theorem decode_of_rowMatches {w : Word} {i : Instr} (h : rowMatches w (rowOf i) = true) :
    ∃ j, decode w = some j ∧ rowOf j = rowOf i := by
  cases i with
  | cls | ret =>
    obtain rfl := eq_pattern_of_rowMatches h (by decide)
    exact ⟨_, rfl, rfl⟩
  | jp | call | seImm | sneImm | ldImm | addImm | ldI | jpV0 | rnd | drw =>
    simp only [rowOf] at h
    have hop := opField_of_rowMatches h (by decide)
    simp [decode, hop, rowOf]
  | seReg | sneReg | ldReg | orReg | andReg | xorReg | addReg | subReg | shr | subnReg | shl =>
    simp only [rowOf] at h
    have hop := opField_of_rowMatches h (by decide)
    have hn := nField_of_rowMatches h (by decide)
    simp [decode, decodeOp8, hop, hn, rowOf]
  | skp | sknp | ldVxDt | ldVxK | ldDtVx | ldStVx | addI | ldF | ldB | ldMemVx | ldVxMem =>
    simp only [rowOf] at h
    have hop := opField_of_rowMatches h (by decide)
    have hnn := nnField_of_rowMatches h (by decide)
    simp [decode, decodeOpE, decodeOpF, hop, hnn, rowOf]

/-- Every row of the table is that of the instruction its pattern decodes to. -/
theorem rowOf_decode_pattern : ∀ r ∈ opcodeTable, (decode r.pattern).map rowOf = some r := by decide

theorem nodup_opcodeTable : opcodeTable.Nodup :=
  List.Nodup.of_map OpcodeRow.pattern (by decide)

/-- The rows that a word matches are those of the instruction it decodes to. -/
theorem mem_matching_rows {w : Word} {r : OpcodeRow} :
    r ∈ opcodeTable.filter (rowMatches w) ↔ ∃ i, decode w = some i ∧ r = rowOf i := by
  rw [List.mem_filter]
  constructor
  · rintro ⟨hr, hmatch⟩
    obtain ⟨i, -, rfl⟩ := Option.map_eq_some_iff.mp (rowOf_decode_pattern r hr)
    obtain ⟨j, hj, hrow⟩ := decode_of_rowMatches hmatch
    exact ⟨j, hj, hrow.symm⟩
  · rintro ⟨i, hi, rfl⟩
    obtain ⟨hwf, rfl⟩ := isInstrOf_decode hi
    exact tableRow_statement i hwf

/-- Settles O3: the matching rows are, as a set, that of the decoded instruction, and no row stands twice. -/
theorem opcodeTableAgreesWithDecode : Obligations.OpcodeTableAgreesWithDecode := by
  intro w
  cases h : decode w with
  | none =>
    refine List.eq_nil_iff_forall_not_mem.mpr fun r hr => ?_
    obtain ⟨i, hi, -⟩ := mem_matching_rows.mp hr
    simp [h] at hi
  | some i =>
    refine List.perm_singleton.mp ((List.perm_ext_iff_of_nodup (nodup_opcodeTable.filter _) (by simp)).mpr fun r => ?_)
    rw [mem_matching_rows, h]
    simp

/-! ### The words that are no instruction (R97) -/

theorem ite_some_eq_none {α : Type} {c : Prop} [Decidable c] {a : α} {o : Option α} :
    (if c then some a else o) = none ↔ ¬c ∧ o = none := by
  split <;> simp [*]

theorem decodeOp0_eq_none {w : Word} : decodeOp0 w = none ↔ w.toNat ≠ 0x00E0 ∧ w.toNat ≠ 0x00EE := by
  simp [decodeOp0, ite_some_eq_none, BitVec.toNat_eq]

theorem decodeOp8_eq_none {n : BitVec 4} {x y : RegIdx} :
    decodeOp8 n x y = none ↔ n.toNat ∈ [0x8, 0x9, 0xA, 0xB, 0xC, 0xD, 0xF] := by
  have hlt := n.isLt
  unfold decodeOp8
  split
  case h_10 =>
    simp only [imp_false, List.mem_cons, List.not_mem_nil, or_false, true_iff] at *
    omega
  all_goals next hk => simp [hk]

theorem decodeOpE_eq_none {nn : Byte} {x : RegIdx} : decodeOpE nn x = none ↔ nn.toNat ∉ [0x9E, 0xA1] := by
  simp [decodeOpE, ite_some_eq_none, BitVec.toNat_eq]

theorem decodeOpF_eq_none {nn : Byte} {x : RegIdx} :
    decodeOpF nn x = none ↔ nn.toNat ∉ [0x07, 0x0A, 0x15, 0x18, 0x1E, 0x29, 0x33, 0x55, 0x65] := by
  simp [decodeOpF, ite_some_eq_none, BitVec.toNat_eq]

/-- Settles O4: the major opcode decides which second-level test, if any, the word must fail. -/
theorem illegalWordsListed : Obligations.IllegalWordsListed := by
  intro w
  rw [← toNat_opField, ← toNat_nField, ← toNat_nnField]
  unfold decode
  split
  case h_1 hk => simp [hk, decodeOp0_eq_none]
  case h_9 hk => simp [hk, decodeOp8_eq_none]
  case h_6 hk | h_10 hk => simp [hk, BitVec.toNat_eq]
  case h_15 hk => simp [hk, decodeOpE_eq_none]
  case h_16 =>
    have hk : (opField w).toNat = 15 := by
      have := (opField w).isLt
      simp only [imp_false] at *
      omega
    simp [hk, decodeOpF_eq_none]
  all_goals next hk => simp [hk]

/-- Settles O5: the decoder is evaluated on each word. -/
theorem sampleWordsDecode : Obligations.SampleWordsDecode := by
  unfold Obligations.SampleWordsDecode
  decide

end Sys2Proof.Machine
end

section
/-! The step and its errors (45_host_operations.md R223; 60_exceptions.md): which instruction a step runs, which error
it reports, that an error changes nothing, and what every event may write (10_state.md R32). -/

namespace Sys2Proof.Machine

/-! ### The instruction that a step runs -/

/-- Where the bytes at `pc` decode, the instruction cycle runs that instruction with `pc` advanced (R223). -/
theorem runInstruction_of_decodeBytes {s : State} {i : Instr} (h : decodeBytes (fetchBytes s) = .instr i) :
    runInstruction s = exec i s.advance := by
  rw [runInstruction, h]

/-- Settles O6: the state from which the event was taken has the same `pc` and memory, so the same fetch. -/
theorem stepRunsDecodedInstruction : Obligations.StepRunsDecodedInstruction := by
  intro s i hwait hnext hpc hdec
  rw [step_running hwait hnext]
  refine runInstruction_of_decodeBytes ?_
  rw [fetchBytes_inside (takeEvent s) hpc]
  exact hdec

/-! ### Which error, and when (R240, R244) -/

/-- An instruction answers with the error that the table lists for the state, or completes where it lists none. -/
theorem exec_answers (i : Instr) (s : State) :
    (∃ f, faultOf i s = some f ∧ exec i s = .fault f) ∨ (faultOf i s = none ∧ ∃ t, exec i s = .next t) := by
  cases i with
  | ret =>
    rcases Nat.eq_zero_or_pos s.sp.val with h | h
    · exact .inl ⟨_, if_pos (Fin.ext h), execRet_fault s h⟩
    · exact .inr ⟨if_neg fun h0 => by simp [h0] at h, _, execRet_next s h⟩
  | call nnn =>
    rcases Nat.lt_or_ge s.sp.val 16 with h | h
    · exact .inr ⟨if_neg fun h16 => by simp [h16] at h, _, execCall_next nnn s h⟩
    · have h16 : s.sp.val = 16 := by omega
      exact .inl ⟨_, if_pos (Fin.ext h16), execCall_fault nnn s h16⟩
  | addI x =>
    rcases execAddI_cases x s with ⟨h, hfault⟩ | ⟨h, hnext⟩
    · exact .inl ⟨_, if_pos h, hfault⟩
    · exact .inr ⟨if_neg (by omega), _, hnext⟩
  | drw x y n =>
    rcases execDrw_cases x y n s with ⟨h0, h, hfault⟩ | ⟨h, hnext⟩
    · exact .inl ⟨_, if_pos ⟨h0, h⟩, hfault⟩
    · exact .inr ⟨if_neg (by omega), _, hnext⟩
  | ldB x =>
    rcases execLdB_cases x s with ⟨h, hfault⟩ | ⟨h, hnext⟩
    · exact .inl ⟨_, if_pos h, hfault⟩
    · exact .inr ⟨if_neg (by omega), _, hnext⟩
  | ldMemVx x =>
    rcases execLdMemVx_cases x s with ⟨h, hfault⟩ | ⟨h, hnext⟩
    · exact .inl ⟨_, if_pos h, hfault⟩
    · exact .inr ⟨if_neg (by omega), _, hnext⟩
  | ldVxMem x =>
    rcases execLdVxMem_cases x s with ⟨h, hfault⟩ | ⟨h, hnext⟩
    · exact .inl ⟨_, if_pos h, hfault⟩
    · exact .inr ⟨if_neg (by omega), _, hnext⟩
  | cls | jp | jpV0 | seImm | sneImm | seReg | sneReg | skp | sknp | ldImm | addImm | ldReg | orReg | andReg | xorReg
  | addReg | subReg | shr | subnReg | shl | ldI | rnd | ldVxDt | ldVxK | ldDtVx | ldStVx | ldF =>
    exact .inr ⟨rfl, _, rfl⟩

/-- An instruction raises an error exactly where the table lists it. -/
theorem exec_fault_iff {i : Instr} {s : State} {f : Fault} : exec i s = .fault f ↔ faultOf i s = some f := by
  rcases exec_answers i s with ⟨g, hof, hexec⟩ | ⟨hof, t, hexec⟩
  · simp [hof, hexec]
  · simp [hof, hexec]

/-- Settles O13: the error is that of the table, and where the table lists none the other answer is left. -/
theorem exactlyTheListedErrors : Obligations.ExactlyTheListedErrors := by
  refine fun i s => ⟨fun f => exec_fault_iff, fun hnone => ?_⟩
  rcases exec_answers i s with ⟨g, hof, -⟩ | ⟨-, hnext⟩
  · simp [hnone] at hof
  · exact hnext

/-! ### No refusal, and nothing kept after an error (R246) -/

theorem exec_ne_refused (i : Instr) (s : State) (r : Refusal) : exec i s ≠ .refused r := by
  rcases exec_answers i s with ⟨f, -, hexec⟩ | ⟨-, t, hexec⟩ <;> simp [hexec]

theorem cycle_ne_refused (s : State) (r : Refusal) : cycle s ≠ .refused r := by
  cases hwait : s.wait with
  | some x => simp [cycle_waiting hwait]
  | none =>
    rw [cycle_running hwait]
    rcases runInstruction_cases s with ⟨-, -, h⟩ | ⟨-, w, -, ⟨-, -, h⟩ | ⟨i, -, -, h⟩⟩
    · simp [h]
    · simp [h]
    · rw [h]; exact exec_ne_refused i s.advance r

/-- `LOAD_ROM` raises `RomTooLarge`, or stores all of the bytes from `0x200` on (R225). -/
theorem hostLoadRom_cases (bytes : List Byte) (s : State) :
    (3584 < bytes.length ∧ hostLoadRom bytes s = .fault .romTooLarge) ∨
    (bytes.length ≤ 3584 ∧ hostLoadRom bytes s = .next { s with mem := storeBytes s.mem 0x200 bytes }) := by
  rcases Nat.lt_or_ge 3584 bytes.length with h | h
  · exact .inl ⟨h, if_pos h⟩
  · exact .inr ⟨h, if_neg (by simpa [Config.romMax] using h)⟩

theorem applyEvent_ne_refused (e : Event) (s : State) (r : Refusal) : applyEvent e s ≠ .refused r := by
  cases e with
  | cycle => exact cycle_ne_refused s r
  | loadRom bytes => rcases hostLoadRom_cases bytes s with ⟨-, h⟩ | ⟨-, h⟩ <;> simp [applyEvent, h]
  | reset | loadFont | tick | setKey => simp [applyEvent]

/-- What the host sees of an event: an error with the state as it was, or success with the next state. -/
theorem afterEvent_cases (e : Event) (s : State) :
    (∃ f, applyEvent e s = .fault f ∧ afterEvent e s = (s, .error f)) ∨
    (∃ t, applyEvent e s = .next t ∧ afterEvent e s = (t, .success)) := by
  cases h : applyEvent e s with
  | next t => exact .inr ⟨t, rfl, by simp [afterEvent, h, deliver]⟩
  | fault f => exact .inl ⟨f, rfl, by simp [afterEvent, h, deliver]⟩
  | refused r => exact absurd h (applyEvent_ne_refused e s r)

/-- Settles O12: only an error's answer is reported as an error, and it carries the state before the event. -/
theorem errorLeavesState : Obligations.ErrorLeavesState := by
  refine fun e s => ⟨fun f hf => ?_, applyEvent_ne_refused e s⟩
  rcases afterEvent_cases e s with ⟨g, hg, hafter⟩ | ⟨t, -, hafter⟩
  · rw [hafter] at hf ⊢
    obtain rfl := Result.error.inj hf
    exact ⟨rfl, hg⟩
  · simp [hafter] at hf

/-! ### A failing cycle goes on failing (R249) -/

/-- The fetch depends on `pc` and on what memory reads as. -/
theorem fetchBytes_congr {s t : State} (hpc : t.pc = s.pc) (hmem : ∀ a, memGet t.mem a = memGet s.mem a) :
    fetchBytes t = fetchBytes s := by
  simp only [fetchBytes, hpc, hmem]

/-- The listed error depends on the registers, `I` and the stack's count. -/
theorem faultOf_congr {s t : State} (i : Instr) (hv : t.v = s.v) (hi : t.i = s.i) (hsp : t.sp = s.sp) :
    faultOf i t = faultOf i s := by
  have hreg : ∀ k, t.reg k = s.reg k := fun k => by rw [State.reg, State.reg, hv]
  cases i <;> simp only [faultOf, hreg, hi, hsp]

/-- Neither the timers nor the key levels make a failing cycle succeed, or fail otherwise. -/
theorem cycle_fault_congr {s t : State} {f : Fault} (hst : KeepsAllBut [.dt, .st, .key] s t)
    (hf : cycle s = .fault f) : cycle t = .fault f := by
  have hv : t.v = s.v := hst .v (by decide)
  have hi : t.i = s.i := hst .i (by decide)
  have hpc : t.pc = s.pc := hst .pc (by decide)
  have hsp : t.sp = s.sp := hst .sp (by decide)
  have hwait : t.wait = s.wait := hst .wait (by decide)
  have hfetch : fetchBytes t = fetchBytes s := fetchBytes_congr hpc (hst .mem (by decide))
  cases hs : s.wait with
  | some x => simp [cycle_waiting hs] at hf
  | none =>
    rw [cycle_running hs] at hf
    rw [cycle_running (hwait.trans hs)]
    unfold runInstruction at hf ⊢
    rw [hfetch]
    cases hdec : decodeBytes (fetchBytes s) with
    | truncated => rw [hdec] at hf; rw [hpc]; exact hf
    | unknownOpcode w => rw [hdec] at hf; exact hf
    | instr i =>
      rw [hdec] at hf
      rw [exec_fault_iff] at hf ⊢
      exact (faultOf_congr (s := s.advance) (t := t.advance) i hv hi hsp).trans hf

/-- After a failing cycle, a `CYCLE`, `TICK` or `SET_KEY` leaves a state whose cycle fails alike: the first by changing
nothing, the others by what they write. -/
theorem cycle_fault_afterEvent {e : Event} {s : State} {f : Fault} (hf : cycle s = .fault f)
    (he : e = .cycle ∨ e = .tick ∨ ∃ k p, e = .setKey k p) : cycle (afterEvent e s).1 = .fault f := by
  rcases he with rfl | rfl | ⟨k, p, rfl⟩
  · have hafter : afterEvent .cycle s = (s, .error f) := congrArg (deliver s) hf
    rw [hafter]
    exact hf
  · refine cycle_fault_congr (t := hostTick s) (fun q hq => ?_) hf
    cases q <;> simp_all [Part.Same]
  · refine cycle_fault_congr (t := hostSetKey k p s) (fun q hq => ?_) hf
    cases q <;> simp_all [Part.Same]

/-- Settles O14, by induction on the events. -/
theorem failureRepeatsUntilReload : Obligations.FailureRepeatsUntilReload := by
  intro s f es hf hes
  induction es generalizing s with
  | nil => exact hf
  | cons e es ih =>
    rw [List.forall_mem_cons] at hes
    exact ih (afterEvent e s).1 (cycle_fault_afterEvent hf hes.1) hes.2

/-! ### What every event may write (R32) -/

theorem setMem_keeps (s : State) (m : Memory) : KeepsAllBut [.mem] s { s with mem := m } := by
  intro p hp; cases p <;> simp_all [Part.Same]

theorem hostTick_keeps (s : State) : KeepsAllBut [.dt, .st] s (hostTick s) := by
  intro p hp; cases p <;> simp_all [Part.Same]

theorem hostSetKey_keeps (k : KeyIdx) (level : Bool) (s : State) : KeepsAllBut [.key] s (hostSetKey k level s) := by
  intro p hp; cases p <;> simp_all [Part.Same]

theorem hostLoadFont_keeps (s : State) : KeepsAllBut [.mem] s (hostLoadFont s) := by
  intro p hp; cases p <;> simp_all [Part.Same]

theorem advance_keeps (s : State) : KeepsAllBut [.pc] s s.advance := setPc_keeps s _

theorem setKprev_keeps (s : State) (sample : Vector Bool 16) : KeepsAllBut [.kprev] s { s with kprev := sample } := by
  intro p hp; cases p <;> simp_all [Part.Same]

theorem setReg_setWait_keeps (s : State) (x : RegIdx) (b : Byte) (w : Option RegIdx) :
    KeepsAllBut [.v, .wait] s { s.setReg x b with wait := w } := by
  intro p hp; cases p <;> simp_all [Part.Same]

theorem pollKeys_keeps (x : RegIdx) (s : State) : KeepsAllBut [.v, .wait, .kprev] s (pollKeys x s) := by
  cases h : s.firstDown with
  | none =>
    rw [pollKeys_none h]
    exact (setKprev_keeps s s.key).mono (by decide)
  | some k =>
    rw [pollKeys_some h]
    exact (setReg_setWait_keeps s x _ none).mono (by decide)

theorem hostLoadRom_next {bytes : List Byte} {s t : State} (h : hostLoadRom bytes s = .next t) :
    bytes.length ≤ 3584 ∧ t = { s with mem := storeBytes s.mem 0x200 bytes } := by
  rcases hostLoadRom_cases bytes s with ⟨-, hfault⟩ | ⟨hlen, hnext⟩
  · simp [hfault] at h
  · exact ⟨hlen, Host.Outcome.next.inj (h.symm.trans hnext)⟩

/-- A cycle that completes is a key-wait poll, or runs the instruction that was fetched. -/
theorem cycle_next {s t : State} (h : cycle s = .next t) :
    (∃ x, s.wait = some x ∧ t = pollKeys x s) ∨
    (s.wait = none ∧ ∃ i, decodeBytes (fetchBytes s) = .instr i ∧ exec i s.advance = .next t) := by
  cases hwait : s.wait with
  | some x => exact .inl ⟨x, rfl, Host.Outcome.next.inj (h.symm.trans (cycle_waiting hwait))⟩
  | none => exact .inr ⟨rfl, runInstruction_next ((cycle_running hwait).symm.trans h)⟩

theorem cycle_keeps {s t : State} (h : cycle s = .next t) : KeepsAllBut (eventWrites .cycle s) s t := by
  rcases cycle_next h with ⟨x, hwait, rfl⟩ | ⟨hwait, i, hdec, hexec⟩
  · simp only [eventWrites, hwait]
    exact pollKeys_keeps x s
  · simp only [eventWrites, hwait, hdec]
    exact ((advance_keeps s).mono (by simp)).trans ((exec_keeps hexec).mono fun p hp => List.mem_cons_of_mem _ hp)

/-- Settles O15: each event's own frame is its row. -/
theorem eventsWriteOnlyTheirParts : Obligations.EventsWriteOnlyTheirParts := by
  intro e s t h
  cases e with
  | cycle => exact cycle_keeps h
  | loadRom bytes =>
    obtain ⟨-, rfl⟩ := hostLoadRom_next h
    exact setMem_keeps s _
  | reset => obtain rfl := Host.Outcome.next.inj h; exact hostReset_keeps s
  | loadFont => obtain rfl := Host.Outcome.next.inj h; exact hostLoadFont_keeps s
  | tick => obtain rfl := Host.Outcome.next.inj h; exact hostTick_keeps s
  | setKey k p => obtain rfl := Host.Outcome.next.inj h; exact hostSetKey_keeps k p s

end Sys2Proof.Machine
end

section
/-! Key-wait (44_keypad_timers.md R203, R204): how a wait begins, what a poll does, and how a wait ends. -/

namespace Sys2Proof.Machine

/-- Settles O16: the wait and its sample are the only writes. -/
theorem keyWaitEntry : Obligations.KeyWaitEntry :=
  fun x s => ⟨{ s with wait := some x, kprev := s.key }, rfl, rfl, rfl, setWaitKprev_keeps s _ _⟩

/-- No key is in `T` exactly where none has gone down (R204). -/
theorem firstDown_eq_none {s : State} :
    s.firstDown = none ↔ ∀ k : KeyIdx, ¬(s.key[k.val] = true ∧ s.kprev[k.val] = false) := by
  simp only [firstDown_none, ← wentDown_iff, Bool.not_eq_true]

/-- The lowest key that has gone down is `min(T)` (R204). -/
theorem firstDown_eq_some {s : State} {k : KeyIdx} (hdown : s.key[k.val] = true) (hup : s.kprev[k.val] = false)
    (hlow : ∀ j : KeyIdx, j < k → ¬(s.key[j.val] = true ∧ s.kprev[j.val] = false)) : s.firstDown = some k := by
  refine firstDown_some.mpr ⟨(wentDown_iff s k).mpr ⟨hdown, hup⟩, fun j hj => ?_⟩
  exact Bool.eq_false_iff.mpr fun h => hlow j hj ((wentDown_iff s j).mp h)

/-- Settles O17: the two cases are those of `min(T)`. -/
theorem keyWaitPoll : Obligations.KeyWaitPoll := by
  refine fun x s hwait => ⟨pollKeys x s, cycle_waiting hwait, fun hnone => ?_, fun k hdown hup hlow => ?_⟩
  · rw [pollKeys_none (firstDown_eq_none.mpr hnone)]
    exact ⟨rfl, setKprev_keeps s s.key⟩
  · rw [pollKeys_some (firstDown_eq_some hdown hup hlow)]
    have hval : ((s.setReg x (BitVec.ofNat 8 k.val)).reg x).toNat = k.val := by
      rw [reg_setReg_same, BitVec.toNat_ofNat]
      omega
    exact ⟨hval, rfl, setReg_regs s x _, setReg_setWait_keeps s x _ none⟩

/-- `LD Vx,K` is the only instruction whose row of the access table names `WAIT`. -/
theorem wait_mem_writesOf {i : Instr} (h : .wait ∈ writesOf i) : ∃ x, i = .ldVxK x := by
  cases i <;> simp_all [writesOf]

/-- An instruction that changes `WAIT` is `LD Vx,K`, and it waits for its own register. -/
theorem eq_ldVxK_of_exec_wait_ne {i : Instr} {s t : State} (h : exec i s = .next t) (hne : t.wait ≠ s.wait) :
    ∃ x, i = .ldVxK x ∧ t.wait = some x := by
  obtain ⟨x, rfl⟩ := wait_mem_writesOf (Decidable.byContradiction fun hmem => hne (exec_keeps h .wait hmem))
  obtain rfl := Host.Outcome.next.inj h
  exact ⟨x, rfl, rfl⟩

/-- A wait goes on until a poll sees a key gone down (R204). -/
theorem pollKeys_wait {x y : RegIdx} {s : State} (hwait : s.wait = some y) :
    (pollKeys x s).wait = some y ∨
    ((pollKeys x s).wait = none ∧ ∃ k : KeyIdx, s.key[k.val] = true ∧ s.kprev[k.val] = false) := by
  cases h : s.firstDown with
  | none => exact .inl (by rw [pollKeys_none h]; exact hwait)
  | some k => exact .inr ⟨by rw [pollKeys_some h], k, (wentDown_iff s k).mp (firstDown_some.mp h).1⟩

/-- Only `CYCLE` and `RESET` have `WAIT` in their row of the access table. -/
theorem wait_eq_of_applyEvent {e : Event} {s t : State} (h : applyEvent e s = .next t) (hc : e ≠ .cycle)
    (hr : e ≠ .reset) : t.wait = s.wait := by
  refine eventsWriteOnlyTheirParts e s t h .wait ?_
  cases e <;> simp_all [eventWrites]

theorem wait_entered {e : Event} {s t : State} {x : RegIdx} (h : applyEvent e s = .next t) (hs : s.wait = none)
    (ht : t.wait = some x) : e = .cycle ∧ decodeBytes (fetchBytes s) = .instr (.ldVxK x) := by
  have hne : t.wait ≠ s.wait := by simp [hs, ht]
  by_cases hc : e = .cycle
  · subst hc
    rcases cycle_next h with ⟨y, hwait, -⟩ | ⟨-, i, hdec, hexec⟩
    · simp [hs] at hwait
    · obtain ⟨y, rfl, hy⟩ := eq_ldVxK_of_exec_wait_ne hexec hne
      obtain rfl : y = x := Option.some.inj (hy.symm.trans ht)
      exact ⟨rfl, hdec⟩
  · by_cases hr : e = .reset
    · subst hr
      obtain rfl := Host.Outcome.next.inj h
      simp [State.reset] at ht
    · exact absurd (wait_eq_of_applyEvent h hc hr) hne

theorem wait_left {e : Event} {s t : State} {x : RegIdx} (h : applyEvent e s = .next t) (hs : s.wait = some x)
    (ht : t.wait ≠ some x) :
    t.wait = none ∧ (e = .reset ∨ (e = .cycle ∧ ∃ k : KeyIdx, s.key[k.val] = true ∧ s.kprev[k.val] = false)) := by
  by_cases hc : e = .cycle
  · subst hc
    rcases cycle_next h with ⟨y, -, rfl⟩ | ⟨hwait, -⟩
    · rcases pollKeys_wait hs with hstay | ⟨hnone, hkey⟩
      · exact absurd hstay ht
      · exact ⟨hnone, .inr ⟨rfl, hkey⟩⟩
    · simp [hs] at hwait
  · by_cases hr : e = .reset
    · subst hr
      obtain rfl := Host.Outcome.next.inj h
      exact ⟨rfl, .inl rfl⟩
    · exact absurd ((wait_eq_of_applyEvent h hc hr).trans hs) ht

/-- Settles O18: the two directions by the event, all others leaving `WAIT` alone. -/
theorem keyWaitEnteredAndLeft : Obligations.KeyWaitEnteredAndLeft :=
  fun _ _ _ h => ⟨fun _ hs ht => wait_entered h hs ht, fun _ hs ht => wait_left h hs ht⟩

end Sys2Proof.Machine
end

section
/-! The `FB` output (45_host_operations.md R228): how many pixels the host reads, and which one at each place. -/

namespace Sys2Proof.Machine

/-- Rows of one length, joined: column `c` of row `r` stands at `r * n + c`. -/
theorem getElem?_flatMap_rows {α : Type} {n : Nat} (rows : List (Vector α n)) {r c : Nat} (hr : r < rows.length)
    (hc : c < n) : (rows.flatMap Vector.toList)[r * n + c]? = some rows[r][c] := by
  induction rows generalizing r with
  | nil => simp at hr
  | cons row rows ih =>
    rw [List.flatMap_cons]
    cases r with
    | zero => simp [List.getElem?_append_left, hc]
    | succ r =>
      have hplace : (r + 1) * n + c - row.toList.length = r * n + c := by
        rw [Vector.length_toList, Nat.succ_mul]; omega
      rw [List.getElem?_append_right (by rw [Vector.length_toList, Nat.succ_mul]; omega), hplace,
        ih (by simpa using hr)]
      rfl

theorem fbOutput_length (s : State) : (fbOutput s).2.2.length = 2048 := by
  simp [fbOutput, List.length_flatMap]

theorem fbOutput_pixel (s : State) (r : Fin 32) (c : Fin 64) :
    (fbOutput s).2.2[r.val * 64 + c.val]? = some (pixel s.fb r c) := by
  have hr : r.val < s.fb.toList.length := by rw [Vector.length_toList]; exact r.isLt
  rw [fbOutput, getElem?_flatMap_rows s.fb.toList hr c.isLt]
  simp [pixel]

/-- Settles O25: the pixel bits are the 32 rows joined. -/
theorem framebufferOutput : Obligations.FramebufferOutput :=
  fun s => ⟨rfl, rfl, fbOutput_length s, fbOutput_pixel s⟩

end Sys2Proof.Machine
end

section
/-! The invariant of every reachable state (10_state.md R33): it holds at reset, every event keeps it, and so it holds
after any events. -/

namespace Sys2Proof.Machine

/-- Settles O9: nothing is listed in memory, `I` is 0, `pc` is `0x200` and no stack entry is in use. -/
theorem resetMeetsInvariant : Obligations.ResetMeetsInvariant :=
  ⟨reset_mem_wf, by decide, by decide, fun _ hj => absurd hj (Nat.not_lt_zero _)⟩

/-! ### The invariant after each kind of write -/

/-- The invariant speaks of memory, `I`, `pc` and the stack only. -/
theorem StateInv.congr {s t : State} (hs : StateInv s) (hmem : t.mem = s.mem) (hi : t.i = s.i) (hpc : t.pc = s.pc)
    (hstack : t.stack = s.stack) (hsp : t.sp = s.sp) : StateInv t where
  mem_wf := hmem ▸ hs.mem_wf
  i_lt := hi ▸ hs.i_lt
  pc_le := hpc ▸ hs.pc_le
  stack_le := fun j hj => by rw [hstack]; exact hs.stack_le j (hsp ▸ hj)

theorem StateInv.setMem {s : State} (hs : StateInv s) {m : Memory} (hm : m.wf = true) :
    StateInv { s with mem := m } :=
  ⟨hm, hs.i_lt, hs.pc_le, hs.stack_le⟩

theorem StateInv.setI {s : State} (hs : StateInv s) {a : Word} (ha : a.toNat < 4096) : StateInv { s with i := a } :=
  ⟨hs.mem_wf, ha, hs.pc_le, hs.stack_le⟩

theorem StateInv.setPc {s : State} (hs : StateInv s) {a : Word} (ha : a.toNat ≤ 0x10FE) : StateInv { s with pc := a } :=
  ⟨hs.mem_wf, hs.i_lt, ha, hs.stack_le⟩

theorem StateInv.setFb_setReg {s : State} (hs : StateInv s) (g : Grid) (x : RegIdx) (b : Byte) :
    StateInv ({ s with fb := g }.setReg x b) :=
  hs.congr rfl rfl rfl rfl rfl

/-- Bytes stored at `I` inside the memory. -/
theorem StateInv.storeAtI {s : State} (hs : StateInv s) {bs : List Byte} (h : s.i.toNat + bs.length ≤ 4096) :
    StateInv (s.storeAtI bs) :=
  hs.setMem (wf_storeBytes hs.mem_wf _ bs h)

theorem StateInv.skipIf {s : State} (hs : StateInv s) (hpc : s.pc.toNat ≤ 4096) (c : Bool) : StateInv (s.skipIf c) := by
  cases c with
  | false => exact hs
  | true =>
    refine hs.setPc ?_
    rw [BitVec.toNat_add]
    simp
    omega

/-- An entry popped is the address of an instruction that was advanced past (R33 (d)). -/
theorem StateInv.ret {s t : State} (hs : StateInv s) (h : exec .ret s = .next t) : StateInv t := by
  rcases Nat.eq_zero_or_pos s.sp.val with hsp | hsp
  · simp [execRet_fault s hsp] at h
  · obtain rfl := Host.Outcome.next.inj ((execRet_next s hsp).symm.trans h)
    have htop := hs.stack_le ⟨s.sp.val - 1, by omega⟩ (by simp; omega)
    refine ⟨hs.mem_wf, hs.i_lt, by simp at htop ⊢; omega, fun j hj => hs.stack_le j ?_⟩
    simp at hj
    omega

/-- An entry pushed is the advanced `pc`. -/
theorem StateInv.call {s t : State} {nnn : Imm12} (hs : StateInv s) (hpc : s.pc.toNat ≤ 4096)
    (h : exec (.call nnn) s = .next t) : StateInv t := by
  rcases Nat.lt_or_ge s.sp.val 16 with hsp | hsp
  · obtain rfl := Host.Outcome.next.inj ((execCall_next nnn s hsp).symm.trans h)
    refine ⟨hs.mem_wf, hs.i_lt, ?_, fun j hj => ?_⟩
    · have := nnn.isLt
      simp only [toNat_addressOf]
      omega
    · simp only [Vector.getElem_set]
      split
      · exact hpc
      · exact hs.stack_le j (by simp at hj; omega)
  · simp [execCall_fault nnn s (by omega)] at h

theorem StateInv.addI {s t : State} {x : RegIdx} (hs : StateInv s) (h : exec (.addI x) s = .next t) :
    StateInv t := by
  rcases execAddI_cases x s with ⟨-, hfault⟩ | ⟨hlt, hnext⟩
  · simp [hfault] at h
  · obtain rfl := Host.Outcome.next.inj (hnext.symm.trans h)
    refine hs.setI ?_
    rw [BitVec.toNat_ofNat]
    omega

theorem StateInv.ldB {s t : State} {x : RegIdx} (hs : StateInv s) (h : exec (.ldB x) s = .next t) : StateInv t := by
  rcases execLdB_cases x s with ⟨-, hfault⟩ | ⟨hlt, hnext⟩
  · simp [hfault] at h
  · obtain rfl := Host.Outcome.next.inj (hnext.symm.trans h)
    exact hs.storeAtI (by rw [length_bcdDigits]; omega)

theorem StateInv.ldMemVx {s t : State} {x : RegIdx} (hs : StateInv s) (h : exec (.ldMemVx x) s = .next t) :
    StateInv t := by
  rcases execLdMemVx_cases x s with ⟨-, hfault⟩ | ⟨hlt, hnext⟩
  · simp [hfault] at h
  · obtain rfl := Host.Outcome.next.inj (hnext.symm.trans h)
    exact hs.storeAtI (by rw [length_regBlock]; omega)

theorem toNat_jumpTarget (nnn : Imm12) (b : Byte) :
    (addressOf nnn + b.setWidth 16).toNat = nnn.toNat + b.toNat := by
  have := nnn.isLt
  have := b.isLt
  rw [BitVec.toNat_add, toNat_addressOf, BitVec.toNat_setWidth]
  omega

/-- An instruction that completes keeps the invariant. -/
theorem StateInv.exec {i : Instr} {s t : State} (hs : StateInv s) (hpc : s.pc.toNat ≤ 4096)
    (h : exec i s = .next t) : StateInv t := by
  cases i with
  | ret => exact hs.ret h
  | call nnn => exact hs.call hpc h
  | addI x => exact hs.addI h
  | ldB x => exact hs.ldB h
  | ldMemVx x => exact hs.ldMemVx h
  | jp nnn =>
    obtain rfl := Host.Outcome.next.inj h
    have := nnn.isLt
    exact hs.setPc (by rw [toNat_addressOf]; omega)
  | jpV0 nnn =>
    obtain rfl := Host.Outcome.next.inj h
    have := nnn.isLt
    have := (s.reg 0).isLt
    exact hs.setPc (by rw [toNat_jumpTarget]; omega)
  | seImm | sneImm | seReg | sneReg | skp | sknp => obtain rfl := Host.Outcome.next.inj h; exact hs.skipIf hpc _
  | ldI nnn =>
    obtain rfl := Host.Outcome.next.inj h
    exact hs.setI (by rw [toNat_addressOf]; exact nnn.isLt)
  | ldF x =>
    obtain rfl := Host.Outcome.next.inj h
    have := (s.lowNibble x).isLt
    exact hs.setI (by rw [toNat_glyphAddress]; omega)
  | drw => obtain rfl := eq_of_withAccess_next h; exact hs.setFb_setReg _ vF _
  | ldVxMem x =>
    obtain rfl := eq_of_withAccess_next h
    exact hs.congr (loadBlock_mem s x) (loadBlock_i s x) (loadBlock_pc s x) (loadBlock_stack s x) (loadBlock_sp s x)
  | cls | ldImm | addImm | ldReg | orReg | andReg | xorReg | addReg | subReg | shr | subnReg | shl | rnd
  | ldVxDt | ldVxK | ldDtVx | ldStVx =>
    obtain rfl := Host.Outcome.next.inj h
    exact hs.congr rfl rfl rfl rfl rfl

/-! ### Events and runs -/

/-- Where a fetch succeeds, the advanced `pc` is at most 4096. -/
theorem toNat_advance_pc {s : State} (h : s.pc.toNat < 4095) : s.advance.pc.toNat = s.pc.toNat + 2 := by
  rw [advance_pc, BitVec.toNat_add]
  simp
  omega

theorem pc_lt_of_decodeBytes {s : State} {i : Instr} (h : decodeBytes (fetchBytes s) = .instr i) :
    s.pc.toNat < 4095 := by
  rcases runInstruction_cases s with ⟨-, htrunc, -⟩ | ⟨hpc, -⟩
  · simp [htrunc] at h
  · exact hpc

theorem StateInv.cycle {s t : State} (hs : StateInv s) (h : cycle s = .next t) : StateInv t := by
  rcases cycle_next h with ⟨x, -, rfl⟩ | ⟨-, i, hdec, hexec⟩
  · exact hs.congr (by simp) (by simp) (by simp) (by simp) (by simp)
  · have hlt := pc_lt_of_decodeBytes hdec
    have hpc : s.advance.pc.toNat ≤ 4096 := by rw [toNat_advance_pc hlt]; omega
    exact (hs.setPc (a := s.advance.pc) (by omega)).exec hpc hexec

/-- Every event that completes keeps the invariant. -/
theorem StateInv.applyEvent {e : Event} {s t : State} (hs : StateInv s) (h : applyEvent e s = .next t) :
    StateInv t := by
  cases e with
  | cycle => exact hs.cycle h
  | loadRom bytes =>
    obtain ⟨hlen, rfl⟩ := hostLoadRom_next h
    exact hs.setMem (wf_storeBytes hs.mem_wf _ _ (by omega))
  | reset =>
    obtain rfl := Host.Outcome.next.inj h
    exact resetMeetsInvariant.congr rfl rfl rfl rfl rfl
  | loadFont =>
    obtain rfl := Host.Outcome.next.inj h
    have hwf := hs.setMem (wf_storeBytes hs.mem_wf fontBase font (by rw [length_font, fontBase_val]; omega))
    exact hwf.congr (by simp) (by simp) (by simp) (by simp) (by simp)
  | tick | setKey => obtain rfl := Host.Outcome.next.inj h; exact hs.congr rfl rfl rfl rfl rfl

/-- Settles O10: taking the event touches `pending` only, and every event keeps the invariant. -/
theorem stepKeepsInvariant : Obligations.StepKeepsInvariant := by
  intro s t hs h
  have htake : StateInv (takeEvent s) := hs.congr rfl rfl rfl rfl rfl
  exact htake.applyEvent h

theorem StateInv.afterEvent {s : State} (hs : StateInv s) (e : Event) : StateInv (afterEvent e s).1 := by
  rcases afterEvent_cases e s with ⟨f, -, hafter⟩ | ⟨t, h, hafter⟩
  · rw [hafter]; exact hs
  · rw [hafter]; exact hs.applyEvent h

theorem StateInv.afterEvents {s : State} (hs : StateInv s) (es : List Event) : StateInv (afterEvents es s).1 := by
  induction es generalizing s with
  | nil => exact hs
  | cons e es ih => exact ih (hs.afterEvent e)

/-- Settles O11: the invariant is carried from reset along the events. -/
theorem reachableStatesMeetInvariant : Obligations.ReachableStatesMeetInvariant :=
  fun es => ⟨resetMeetsInvariant.afterEvents es, fbOutput_length _⟩

end Sys2Proof.Machine
end

section
/-! Hidden state (10_state.md R26, R30): two states that differ only in stale stack entries, and in the key-wait sample
while running, answer every event alike. Each such state is the other with its stack and its sample replaced
(`withHidden`), so that all other parts are carried along by computation. -/

namespace Sys2Proof.Machine

/-! ### States that look alike -/

/-- A state with other stack entries and another key-wait sample. -/
def State.withHidden (s : State) (entries : Vector Word 16) (sample : Vector Bool 16) : State :=
  { s with stack := entries, kprev := sample }

theorem looksAlike_withHidden {s : State} {entries : Vector Word 16} {sample : Vector Bool 16}
    (hstack : ∀ j : Fin 16, j.val < s.sp.val → entries[j.val] = s.stack[j.val])
    (hsample : s.wait ≠ none → sample = s.kprev) : LooksAlike s (s.withHidden entries sample) where
  kept := fun p hp => by cases p <;> simp_all [Part.Same, State.withHidden]
  memory := rfl
  stack := hstack
  sample := hsample

theorem LooksAlike.eq_withHidden {s t : State} (h : LooksAlike s t) : t = s.withHidden t.stack t.kprev := by
  have hmem := h.memory
  have hv : t.v = s.v := h.kept .v (by decide)
  have hi : t.i = s.i := h.kept .i (by decide)
  have hpc : t.pc = s.pc := h.kept .pc (by decide)
  have hsp : t.sp = s.sp := h.kept .sp (by decide)
  have hdt : t.dt = s.dt := h.kept .dt (by decide)
  have hst : t.st = s.st := h.kept .st (by decide)
  have hkey : t.key = s.key := h.kept .key (by decide)
  have hwait : t.wait = s.wait := h.kept .wait (by decide)
  have hfb : t.fb = s.fb := h.kept .fb (by decide)
  have hdraws : t.draws = s.draws := h.kept .draws (by decide)
  have hpending : t.pending = s.pending := h.kept .pending (by decide)
  rw [State.withHidden, ← hmem, ← hv, ← hi, ← hpc, ← hsp, ← hdt, ← hst, ← hkey, ← hwait, ← hfb, ← hdraws, ← hpending]

/-- Answers that look alike: the same error, or next states that look alike. -/
def AnswersAlike : Answer → Answer → Prop
  | .next s, .next t => LooksAlike s t
  | .fault f, .fault g => f = g
  | _, _ => False

theorem AnswersAlike.fault {a : Answer} {f : Fault} (h : AnswersAlike (.fault f) a) : a = .fault f := by
  cases a with
  | fault g => exact congrArg _ (Eq.symm h)
  | next t => exact h.elim
  | refused r => exact h.elim

theorem AnswersAlike.next {a : Answer} {s : State} (h : AnswersAlike (.next s) a) :
    ∃ t, a = .next t ∧ LooksAlike s t := by
  cases a with
  | next t => exact ⟨t, rfl, h⟩
  | fault g => exact h.elim
  | refused r => exact h.elim

section
variable {s : State} {entries : Vector Word 16} {sample : Vector Bool 16}

/-- A write elsewhere leaves states alike, with the same hidden parts. -/
theorem LooksAlike.update {s' : State} (h : LooksAlike s (s.withHidden entries sample)) (hstack : s'.stack = s.stack)
    (hsp : s'.sp = s.sp) (hwait : s'.wait = s.wait) (hkprev : s'.kprev = s.kprev) :
    LooksAlike s' (s'.withHidden entries sample) := by
  refine looksAlike_withHidden (fun j hj => ?_) fun hw => ?_
  · rw [hsp] at hj
    rw [hstack]
    exact h.stack j hj
  · rw [hwait] at hw
    rw [hkprev]
    exact h.sample hw

/-! ### Instructions -/

theorem skipIf_withHidden (s : State) (entries : Vector Word 16) (sample : Vector Bool 16) (c : Bool) :
    (s.withHidden entries sample).skipIf c = (s.skipIf c).withHidden entries sample := by
  cases c <;> rfl

theorem loadBlock_withHidden (s : State) (entries : Vector Word 16) (sample : Vector Bool 16) (x : RegIdx) :
    (s.withHidden entries sample).loadBlock x = (s.loadBlock x).withHidden entries sample := rfl

theorem skipIf_alike (h : LooksAlike s (s.withHidden entries sample)) (c : Bool) :
    AnswersAlike (.next (s.skipIf c)) (.next ((s.withHidden entries sample).skipIf c)) := by
  rw [skipIf_withHidden]
  exact h.update (skipIf_stack s c) (skipIf_sp s c) (skipIf_wait s c) (skipIf_kprev s c)

theorem withAccess_alike {u : State} (h : LooksAlike u (u.withHidden entries sample)) (count : Nat) :
    AnswersAlike (withAccess s count u)
      (withAccess (s.withHidden entries sample) count (u.withHidden entries sample)) := by
  have hi : (s.withHidden entries sample).i = s.i := rfl
  unfold withAccess
  rw [hi]
  split
  · rfl
  · exact h

theorem execAddI_alike (h : LooksAlike s (s.withHidden entries sample)) (x : RegIdx) :
    AnswersAlike (exec (.addI x) s) (exec (.addI x) (s.withHidden entries sample)) := by
  have hi : (s.withHidden entries sample).i = s.i := rfl
  have hreg : (s.withHidden entries sample).reg x = s.reg x := rfl
  simp only [exec, execAddI, hi, hreg]
  split
  · rfl
  · exact h.update rfl rfl rfl rfl

/-- The entry that a pop takes is one in use, so it is the same in both states. -/
theorem execRet_alike (h : LooksAlike s (s.withHidden entries sample)) :
    AnswersAlike (exec .ret s) (exec .ret (s.withHidden entries sample)) := by
  rcases Nat.eq_zero_or_pos s.sp.val with hsp | hsp
  · rw [execRet_fault s hsp, execRet_fault (s.withHidden entries sample) hsp]
    rfl
  · have htop : entries[s.sp.val - 1] = s.stack[s.sp.val - 1] := h.stack ⟨s.sp.val - 1, by omega⟩ (by simp; omega)
    rw [execRet_next s hsp, execRet_next (s.withHidden entries sample) hsp]
    change AnswersAlike _ (.next (State.withHidden
      { s with pc := entries[s.sp.val - 1], sp := ⟨s.sp.val - 1, by omega⟩ } entries sample))
    rw [htop]
    refine looksAlike_withHidden (fun j hj => h.stack j ?_) h.sample
    simp at hj
    omega

/-- A push writes the same entry in both states, and it is the only one that comes into use. -/
theorem execCall_alike (h : LooksAlike s (s.withHidden entries sample)) (nnn : Imm12) :
    AnswersAlike (exec (.call nnn) s) (exec (.call nnn) (s.withHidden entries sample)) := by
  rcases Nat.lt_or_ge s.sp.val 16 with hsp | hsp
  · rw [execCall_next nnn s hsp, execCall_next nnn (s.withHidden entries sample) hsp]
    refine looksAlike_withHidden
      (s := { s with pc := addressOf nnn, stack := s.stack.set s.sp.val s.pc, sp := ⟨s.sp.val + 1, by omega⟩ })
      (entries := entries.set s.sp.val s.pc) (fun j hj => ?_) h.sample
    simp only [Vector.getElem_set]
    split
    · rfl
    · exact h.stack j (by simp at hj; omega)
  · have hfull : s.sp.val = 16 := by omega
    rw [execCall_fault nnn s hfull, execCall_fault nnn (s.withHidden entries sample) hfull]
    rfl

/-- Instructions of states that look alike answer alike. -/
theorem exec_alike (h : LooksAlike s (s.withHidden entries sample)) (i : Instr) :
    AnswersAlike (exec i s) (exec i (s.withHidden entries sample)) := by
  cases i with
  | ret => exact execRet_alike h
  | call nnn => exact execCall_alike h nnn
  | addI x => exact execAddI_alike h x
  | seImm | sneImm | seReg | sneReg | skp | sknp => exact skipIf_alike h _
  | drw x y n =>
    exact withAccess_alike
      (h.update (s' := { s with fb := (drawn x y n s).1 }.setReg vF (flagByte (drawn x y n s).2)) rfl rfl rfl rfl) n
  | ldB x => exact withAccess_alike (h.update (s' := s.storeAtI (bcdDigits (s.reg x))) rfl rfl rfl rfl) 3
  | ldMemVx x => exact withAccess_alike (h.update (s' := s.storeAtI (s.regBlock x)) rfl rfl rfl rfl) (x.val + 1)
  | ldVxMem x =>
    have hload := h.update (loadBlock_stack s x) (loadBlock_sp s x) (loadBlock_wait s x) (loadBlock_kprev s x)
    simp only [exec, execLdVxMem, loadBlock_withHidden]
    exact withAccess_alike hload (x.val + 1)
  | ldVxK x => exact looksAlike_withHidden (s := { s with wait := some x, kprev := s.key }) h.stack fun _ => rfl
  | cls | jp | jpV0 | ldImm | addImm | ldReg | orReg | andReg | xorReg | addReg | subReg | shr | subnReg | shl | ldI
  | rnd | ldVxDt | ldDtVx | ldStVx | ldF =>
    exact h.update rfl rfl rfl rfl

/-! ### Events -/

theorem runInstruction_alike (h : LooksAlike s (s.withHidden entries sample)) :
    AnswersAlike (runInstruction s) (runInstruction (s.withHidden entries sample)) := by
  have hfetch : fetchBytes (s.withHidden entries sample) = fetchBytes s := rfl
  have hadvance : LooksAlike s.advance (s.advance.withHidden entries sample) := h.update rfl rfl rfl rfl
  unfold runInstruction
  rw [hfetch]
  cases decodeBytes (fetchBytes s) with
  | truncated | unknownOpcode w => rfl
  | instr i => exact exec_alike hadvance i

/-- In key-wait the samples are the same, so that the same key ends the wait in both states. -/
theorem pollKeys_alike (h : LooksAlike s (s.withHidden entries sample)) (hwait : s.wait ≠ none) (x : RegIdx) :
    LooksAlike (pollKeys x s) (pollKeys x (s.withHidden entries sample)) := by
  obtain rfl : sample = s.kprev := h.sample hwait
  have hfirst : (s.withHidden entries s.kprev).firstDown = s.firstDown := rfl
  cases hdown : s.firstDown with
  | none =>
    rw [pollKeys_none hdown, pollKeys_none (hfirst.trans hdown)]
    exact looksAlike_withHidden (s := { s with kprev := s.key }) h.stack fun _ => rfl
  | some k =>
    rw [pollKeys_some hdown, pollKeys_some (hfirst.trans hdown)]
    exact looksAlike_withHidden (s := { s.setReg x (BitVec.ofNat 8 k.val) with wait := none }) h.stack
      fun hw => absurd rfl hw

theorem cycle_alike (h : LooksAlike s (s.withHidden entries sample)) :
    AnswersAlike (cycle s) (cycle (s.withHidden entries sample)) := by
  have hsame : (s.withHidden entries sample).wait = s.wait := rfl
  cases hwait : s.wait with
  | none =>
    rw [cycle_running hwait, cycle_running (hsame.trans hwait)]
    exact runInstruction_alike h
  | some x =>
    rw [cycle_waiting hwait, cycle_waiting (hsame.trans hwait)]
    exact pollKeys_alike h (by simp [hwait]) x

theorem hostLoadRom_alike (h : LooksAlike s (s.withHidden entries sample)) (bytes : List Byte) :
    AnswersAlike (hostLoadRom bytes s) (hostLoadRom bytes (s.withHidden entries sample)) := by
  unfold hostLoadRom
  split
  · rfl
  · exact h.update rfl rfl rfl rfl

theorem hostLoadFont_withHidden (s : State) (entries : Vector Word 16) (sample : Vector Bool 16) :
    hostLoadFont (s.withHidden entries sample) = (hostLoadFont s).withHidden entries sample := by
  simp only [hostLoadFont, loadFontTable, State.withHidden]

/-- Events in states that look alike answer alike. -/
theorem applyEvent_alike (h : LooksAlike s (s.withHidden entries sample)) (e : Event) :
    AnswersAlike (applyEvent e s) (applyEvent e (s.withHidden entries sample)) := by
  cases e with
  | cycle => exact cycle_alike h
  | loadRom bytes => exact hostLoadRom_alike h bytes
  | reset => exact looksAlike_withHidden (s := hostReset s) (fun _ _ => rfl) fun _ => rfl
  | loadFont =>
    simp only [applyEvent, hostLoadFont_withHidden]
    exact h.update (hostLoadFont_stack s) (hostLoadFont_sp s) (hostLoadFont_wait s) (hostLoadFont_kprev s)
  | tick | setKey => exact h.update rfl rfl rfl rfl

end

/-- The outputs read no hidden part. -/
theorem LooksAlike.outputs {s t : State} (h : LooksAlike s t) :
    fbOutput t = fbOutput s ∧ soundOutput t = soundOutput s := by
  have hfb : t.fb = s.fb := h.kept .fb (by decide)
  exact ⟨by rw [fbOutput, fbOutput, hfb], soundOutput_congr (h.kept .st (by decide))⟩

/-- Settles O26: a simulation, every event taking states that look alike to answers that do. -/
theorem hiddenStateUnobservable : Obligations.HiddenStateUnobservable := by
  intro e s t h
  have halike := applyEvent_alike (h.eq_withHidden ▸ h) e
  rw [← h.eq_withHidden] at halike
  refine ⟨fun f hf => ?_, fun s' hs' => ?_⟩
  · rw [hf] at halike
    exact halike.fault
  · rw [hs'] at halike
    obtain ⟨t', ht', hlook⟩ := halike.next
    exact ⟨t', ht', hlook, hlook.outputs⟩

end Sys2Proof.Machine
end

section
/-! The host's other events (45_host_operations.md R222, R224, R225, R227): what each leaves and its frame. -/

namespace Sys2Proof.Machine

/-! ### Timers and keys -/

/-- Settles O19: each timer counts down on its own. -/
theorem tickEvent : Obligations.TickEvent :=
  fun s => ⟨hostTick s, rfl, toNat_countDown s.dt, toNat_countDown s.st, hostTick_keeps s⟩

theorem iterate_hostTick_dt (n : Nat) (s : State) : (hostTick^[n] s).dt.toNat = s.dt.toNat - n := by
  induction n generalizing s with
  | zero => rfl
  | succ n ih => rw [Function.iterate_succ_apply, ih, hostTick_dt, toNat_countDown]; omega

theorem iterate_hostTick_st (n : Nat) (s : State) : (hostTick^[n] s).st.toNat = s.st.toNat - n := by
  induction n generalizing s with
  | zero => rfl
  | succ n ih => rw [Function.iterate_succ_apply, ih, hostTick_st, toNat_countDown]; omega

theorem iterate_hostTick_keeps (n : Nat) (s : State) : KeepsAllBut [.dt, .st] s (hostTick^[n] s) := by
  induction n generalizing s with
  | zero => exact KeepsAllBut.refl _ s
  | succ n ih => exact (hostTick_keeps s).trans (ih (hostTick s))

/-- Settles O20: ticks in a row are the tick iterated. -/
theorem timersAfterTicks : Obligations.TimersAfterTicks := by
  intro n s
  rw [afterEvents_ticks]
  exact ⟨iterate_hostTick_dt n s, iterate_hostTick_st n s, iterate_hostTick_keeps n s⟩

/-- Settles O21: one element of the keypad is written. -/
theorem setKeyEvent : Obligations.SetKeyEvent := by
  refine fun k p s => ⟨hostSetKey k p s, rfl, ?_, fun j hj => ?_, hostSetKey_keeps k p s⟩
  · rw [hostSetKey_key, Vector.getElem_set_self]
  · rw [hostSetKey_key, Vector.getElem_set_ne _ _ fun h => hj (Fin.ext h.symm)]

/-! ### Loads -/

/-- Settles O22: the two cases of `hostLoadRom`, the bytes by the laws of `storeBytes`. -/
theorem loadRomEvent : Obligations.LoadRomEvent := by
  intro bytes s
  rcases hostLoadRom_cases bytes s with ⟨hlong, hfault⟩ | ⟨hfits, hnext⟩
  · exact ⟨fun _ => ⟨hfault, congrArg (deliver s) hfault⟩, fun h => by omega⟩
  · refine ⟨fun h => by omega, fun _ => ⟨_, hnext, fun k hk => memGet_storeBytes_inside _ _ _ hk,
      fun b hb => memGet_storeBytes_outside _ _ _ hb, setMem_keeps s _⟩⟩

/-- Storing the same bytes again changes no byte. -/
theorem memGet_storeBytes_again (m : Memory) (a : Nat) (bs : List Byte) (b : Nat) :
    memGet (storeBytes (storeBytes m a bs) a bs) b = memGet (storeBytes m a bs) b := by
  by_cases h : b < a ∨ a + bs.length ≤ b
  · exact memGet_storeBytes_outside _ _ _ h
  · obtain ⟨k, rfl⟩ : ∃ k, b = a + k := ⟨b - a, by omega⟩
    have hk : k < bs.length := by omega
    rw [memGet_storeBytes_inside _ _ _ hk, memGet_storeBytes_inside _ _ _ hk]

/-- A write of memory after which every byte reads as before changes nothing. -/
theorem KeepsAllBut.of_mem {s t : State} (h : KeepsAllBut [.mem] s t) (hmem : ∀ a, memGet t.mem a = memGet s.mem a) :
    KeepsAllBut [] s t := by
  intro p _
  by_cases hp : p = .mem
  · subst hp; exact hmem
  · exact h p (by simpa using hp)

/-- Settles O23: the bytes by the laws of `storeBytes`, for any font table. -/
theorem loadFontEvent : Obligations.LoadFontEvent := by
  refine ⟨length_font, fun s => ⟨hostLoadFont s, rfl, fun k hk => ?_, fun b hb => ?_, hostLoadFont_keeps s,
    hostLoadFont (hostLoadFont s), rfl, (hostLoadFont_keeps _).of_mem fun a => ?_⟩⟩
  · rw [hostLoadFont_mem, fontBase_val]
    exact memGet_storeBytes_inside _ _ _ hk
  · rw [hostLoadFont_mem, fontBase_val]
    exact memGet_storeBytes_outside _ _ _ (by rw [length_font]; exact hb)
  · rw [hostLoadFont_mem, hostLoadFont_mem]
    exact memGet_storeBytes_again _ _ _ a

end Sys2Proof.Machine
end

section
/-! Drawing (43_display.md R192): the pixels after a sprite, the collision, and the sprite drawn twice. -/

namespace Sys2Proof.Machine

/-- The pixels after a sprite: flipped exactly where it covers them. -/
theorem pixel_drawn {x y : RegIdx} {n : Nat} {s : State} (hn : n < 16) (r : Fin 32) (c : Fin 64) :
    pixel (drawn x y n s).1 r c = true ↔ Xor (pixel s.fb r c = true) (SpriteCovers x y n s r c) := by
  have hlen : (bytesAtI s n).length ≤ 32 := by rw [bytesAtI, length_loadBytes]; omega
  rw [drawn, (plotSprite_spec (bytesAtI s n) (s.fb, false) _ _ hlen).1, spriteCovers_iff, Bool.coe_xor_iff]

/-- A collision: some pixel under the sprite was set. -/
theorem collision_drawn {x y : RegIdx} {n : Nat} {s : State} (hn : n < 16) :
    (drawn x y n s).2 = true ↔ ∃ r c, SpriteCovers x y n s r c ∧ pixel s.fb r c = true := by
  have hlen : (bytesAtI s n).length ≤ 32 := by rw [bytesAtI, length_loadBytes]; omega
  rw [drawn, (plotSprite_spec (bytesAtI s n) (s.fb, false) _ _ hlen).2]
  simp [spriteCovers_iff]

/-- The state that `DRW` leaves where its access is in bounds. -/
def afterDraw (x y : RegIdx) (n : Nat) (s : State) : State :=
  { s with fb := (drawn x y n s).1 }.setReg vF (flagByte (drawn x y n s).2)

theorem execDrw_next {x y : RegIdx} {n : Nat} {s : State} (h : n = 0 ∨ s.i.toNat + n ≤ 4096) :
    exec (.drw x y n) s = .next (afterDraw x y n s) :=
  withAccess_next s n _ h

theorem execDrw_fault {x y : RegIdx} {n : Nat} {s : State} (h0 : 0 < n) (h : 4096 < s.i.toNat + n) :
    exec (.drw x y n) s = .fault (.outOfBounds 4096) :=
  withAccess_fault s n _ h0 h

theorem afterDraw_fb (x y : RegIdx) (n : Nat) (s : State) : (afterDraw x y n s).fb = (drawn x y n s).1 :=
  setReg_fb _ _ _

theorem afterDraw_vF (x y : RegIdx) (n : Nat) (s : State) :
    (afterDraw x y n s).reg vF = flagByte (drawn x y n s).2 :=
  reg_setReg_same _ _ _

theorem afterDraw_vF_eq_one {x y : RegIdx} {n : Nat} {s : State} (hn : n < 16) :
    (afterDraw x y n s).reg vF = 1 ↔ ∃ r c, SpriteCovers x y n s r c ∧ pixel s.fb r c = true := by
  rw [afterDraw_vF, flagByte_eq_one, collision_drawn hn]

theorem flagByte_one_or_zero (f : Bool) : flagByte f = 1 ∨ flagByte f = 0 := by
  cases f
  · exact .inr rfl
  · exact .inl rfl

/-- Settles O28: pixels and collision are those of the drawing loop, which hits what `SpriteCovers` says. -/
theorem drawSprite : Obligations.DrawSprite := by
  refine fun x y n s hn => ⟨execDrw_fault, fun h => ⟨afterDraw x y n s, execDrw_next h, fun r c => ?_, ?_,
    afterDraw_vF_eq_one hn, setReg_regs _ _ _, setFb_setReg_keeps s _ vF _⟩⟩
  · rw [afterDraw_fb]; exact pixel_drawn hn r c
  · rw [afterDraw_vF]; exact flagByte_one_or_zero _

/-- The pixels under a sprite depend on the coordinates, `I` and memory. -/
theorem spriteCovers_congr {x y : RegIdx} {n : Nat} {s t : State} (hx : t.reg x = s.reg x) (hy : t.reg y = s.reg y)
    (hi : t.i = s.i) (hmem : t.mem = s.mem) (r : Fin 32) (c : Fin 64) :
    SpriteCovers x y n t r c ↔ SpriteCovers x y n s r c := by
  simp only [SpriteCovers, hx, hy, hi, hmem]

theorem xor_xor_cancel (a b : Prop) : Xor (Xor a b) b ↔ a := by
  simp only [Xor]
  tauto

/-- Settles O29: a covered pixel is flipped twice, and between the two draws it is set where it was unset. -/
theorem drawTwiceRestores : Obligations.DrawTwiceRestores := by
  refine fun x y n s hn h => ⟨afterDraw x y n s, execDrw_next h, fun hx hy =>
    ⟨afterDraw x y n (afterDraw x y n s), execDrw_next h, ?_, ?_⟩⟩
  · refine grid_ext fun r c => Bool.eq_iff_iff.mpr ?_
    rw [afterDraw_fb, pixel_drawn hn, spriteCovers_congr hx hy rfl rfl, afterDraw_fb, pixel_drawn hn]
    exact xor_xor_cancel _ _
  · rw [afterDraw_vF_eq_one hn]
    refine exists_congr fun r => exists_congr fun c => ?_
    rw [spriteCovers_congr hx hy rfl rfl, afterDraw_fb, pixel_drawn hn]
    simp only [Xor, ← Bool.not_eq_true]
    tauto

end Sys2Proof.Machine
end

section
/-! The remaining flow and arithmetic instructions (40_flow.md, 41_alu.md, 44_keypad_timers.md). -/

namespace Sys2Proof.Machine

/-! ### Control transfer -/

/-- Settles O32: the entry that `RET` pops is the one that `CALL` wrote, and it wrote no other. -/
theorem callThenReturn : Obligations.CallThenReturn := by
  intro nnn s hsp
  refine ⟨_, execCall_next nnn s hsp, fun u hstack husp => ?_⟩
  have hval : u.sp.val = s.sp.val + 1 := by rw [husp]
  refine ⟨_, execRet_next u (by omega), ?_, Fin.ext (by simp [hval]), fun j hj => ?_⟩
  · simp only [hstack, hval, Nat.add_sub_cancel, Vector.getElem_set_self]
  · simp only [hstack]
    exact Vector.getElem_set_ne _ _ (by omega)

/-- Settles O34: the sum of a 12-bit field and a byte fits in 16 bits. -/
theorem jumpV0 : Obligations.JumpV0 :=
  fun nnn s => ⟨{ s with pc := addressOf nnn + (s.reg 0).setWidth 16 }, rfl, toNat_jumpTarget nnn (s.reg 0),
    setPc_keeps s _⟩

/-- The key that a register selects is that of its low nibble (R200). -/
theorem keyOf_eq {s : State} {x : RegIdx} {k : KeyIdx} (hk : k.val = (s.reg x).toNat % 16) :
    s.keyOf x = s.key[k.val] := by
  obtain rfl : s.lowNibble x = k := Fin.ext ((val_lowNibble s x).trans hk.symm)
  rfl

/-- Settles O37: the tests of `SKP` and `SKNP` are the level of the selected key and its negation. -/
theorem skipOnKey : Obligations.SkipOnKey :=
  fun x s k hk => ⟨next_skipIf s (by rw [keyOf_eq hk]), next_skipIf s (by rw [keyOf_eq hk, Bool.not_eq_true'])⟩

/-! ### Results without a flag -/

/-- An instruction that writes one register completes with that value there and changes nothing else. -/
theorem next_setReg (s : State) (x : RegIdx) (b : Byte) :
    ∃ t, (.next (s.setReg x b) : Answer) = .next t ∧ t.reg x = b ∧ RegsKeptBut [x] s t ∧ KeepsAllBut [.v] s t :=
  ⟨_, rfl, reg_setReg_same s x b, setReg_regs s x b, setReg_keeps s x b⟩

/-- Settles O39: the result is the sum modulo 256. -/
theorem addImmediate : Obligations.AddImmediate := by
  intro x nn s
  obtain ⟨t, hnext, hreg, hframe⟩ := next_setReg s x (addResult (s.reg x) nn)
  exact ⟨t, hnext, by rw [hreg, toNat_addResult], hframe⟩

/-- Settles O40: the copy is one register write. -/
theorem copyRegister : Obligations.CopyRegister := fun x y s => next_setReg s x (s.reg y)

/-- Settles O41: each result is a bitwise operation, so each of its bits is that operation on bits. -/
theorem logicOperations : Obligations.LogicOperations :=
  fun x y s =>
    ⟨⟨_, rfl, setReg_regs s x _, setReg_keeps s x _, fun b => by rw [reg_setReg_same, BitVec.getLsbD_or]⟩,
     ⟨_, rfl, setReg_regs s x _, setReg_keeps s x _, fun b => by rw [reg_setReg_same, BitVec.getLsbD_and]⟩,
     ⟨_, rfl, setReg_regs s x _, setReg_keeps s x _, fun b => by rw [reg_setReg_same, BitVec.getLsbD_xor]⟩⟩

/-- Settles O47: one draw is taken, then one register written. -/
theorem randomMasked : Obligations.RandomMasked := by
  refine fun x nn s => ⟨(drawByte s).2.setReg x ((drawByte s).1 &&& nn), rfl, reg_setReg_same _ x _, fun b hb => ?_,
    rfl, setReg_regs _ x _, drawByte_setReg_keeps s x _⟩
  rw [reg_setReg_same, BitVec.getLsbD_and, hb, Bool.and_false]

/-! ### Shifts (R149, R151) -/

theorem toNat_shrResult (a : Byte) : (shrResult a).toNat = a.toNat / 2 := by
  simp [shrResult, Nat.shiftRight_eq_div_pow]

theorem toNat_flagByte_shrFlag (a : Byte) : (flagByte (shrFlag a)).toNat = a.toNat % 2 := by
  rw [toNat_flagByte, shrFlag, BitVec.getLsbD, Nat.testBit_zero]
  rcases Nat.mod_two_eq_zero_or_one a.toNat with h | h <;> simp [h]

theorem toNat_shlResult (a : Byte) : (shlResult a).toNat = a.toNat * 2 % 256 := by
  simp [shlResult, Nat.shiftLeft_eq]

theorem toNat_flagByte_shlFlag (a : Byte) : (flagByte (shlFlag a)).toNat = a.toNat / 128 := by
  have hlt := a.isLt
  rw [toNat_flagByte, shlFlag, BitVec.getLsbD, Nat.testBit_eq_decide_div_mod_eq]
  have hbit : a.toNat / 128 = 0 ∨ a.toNat / 128 = 1 := by omega
  rcases hbit with h | h <;> simp [h]

/-- Settles O45: half, and the remainder in the flag. -/
theorem shiftRight : Obligations.ShiftRight :=
  fun x _ s => next_setRegFlag s x (toNat_shrResult (s.reg x)) (toNat_flagByte_shrFlag (s.reg x))

/-- Settles O46: the double modulo 256, and its bit 8 in the flag. -/
theorem shiftLeft : Obligations.ShiftLeft :=
  fun x _ s => next_setRegFlag s x (toNat_shlResult (s.reg x)) (toNat_flagByte_shlFlag (s.reg x))

end Sys2Proof.Machine
end

section
/-! Index register and memory (42_index_memory.md R172 to R176): the blocks stored and loaded at `I`, and what the next
fetch sees of them. -/

namespace Sys2Proof.Machine

/-! ### The index register -/

/-- Settles O49: the two cases of `ADD I,Vx`. -/
theorem addToIndex : Obligations.AddToIndex := by
  intro x s
  rcases execAddI_cases x s with ⟨hge, hfault⟩ | ⟨hlt, hnext⟩
  · exact ⟨fun _ => hfault, fun h => by omega⟩
  · refine ⟨fun h => by omega, fun _ => ⟨_, hnext, ?_, setI_keeps s _⟩⟩
    exact (BitVec.toNat_ofNat _ _).trans (Nat.mod_eq_of_lt (by omega))

/-- Settles O50: the glyph of the low nibble. -/
theorem fontGlyphAddress : Obligations.FontGlyphAddress :=
  fun x s => ⟨{ s with i := glyphAddress (s.lowNibble x) }, rfl, by rw [toNat_glyphAddress, val_lowNibble],
    setI_keeps s _⟩

/-! ### Blocks at `I` -/

/-- A byte stored at `I` reads back. -/
theorem memGet_storeAtI {s : State} {bs : List Byte} {k : Nat} (hk : k < bs.length) :
    memGet (s.storeAtI bs).mem (s.i.toNat + k) = bs[k] := by
  rw [storeAtI_mem, memGet_storeBytes_inside _ _ _ hk]

/-- A decimal digit stored at `I` reads back as its value. -/
theorem toNat_storedDigit {s : State} {bs : List Byte} {k d : Nat} (hk : k < bs.length)
    (hdigit : bs[k] = BitVec.ofNat 8 d) (hd : d < 10) : (memGet (s.storeAtI bs).mem (s.i.toNat + k)).toNat = d := by
  rw [memGet_storeAtI hk, hdigit, BitVec.toNat_ofNat]
  omega

/-- Settles O51: the three bytes are the decimal digits of a number below 1000. -/
theorem storeDecimalDigits : Obligations.StoreDecimalDigits := by
  intro x s
  rcases execLdB_cases x s with ⟨hge, hfault⟩ | ⟨hlt, hnext⟩
  · exact ⟨fun _ => hfault, fun h => by omega⟩
  · have hb := (s.reg x).isLt
    have hhundreds := toNat_storedDigit (s := s) (bs := bcdDigits (s.reg x)) (k := 0) (by simp) rfl
      (show (s.reg x).toNat / 100 < 10 by omega)
    have htens := toNat_storedDigit (s := s) (bs := bcdDigits (s.reg x)) (k := 1) (by simp) rfl
      (show (s.reg x).toNat / 10 % 10 < 10 by omega)
    have hones := toNat_storedDigit (s := s) (bs := bcdDigits (s.reg x)) (k := 2) (by simp) rfl
      (show (s.reg x).toNat % 10 < 10 by omega)
    refine ⟨fun h => by omega, fun _ => ⟨_, hnext, ?_, ?_, ?_, storeAtI_bytes s (bcdDigits (s.reg x)),
      storeAtI_keeps s _⟩⟩
    · rw [Nat.add_zero] at hhundreds
      rw [hhundreds, htens, hones]
      omega
    · rw [htens]; omega
    · rw [hones]; omega

/-- Settles O52: the block stored is `V0 .. Vx`. -/
theorem dumpRegisters : Obligations.DumpRegisters := by
  intro x s
  rcases execLdMemVx_cases x s with ⟨hge, hfault⟩ | ⟨hlt, hnext⟩
  · exact ⟨fun _ => hfault, fun h => by omega⟩
  · refine ⟨fun h => by omega, fun _ => ⟨_, hnext, fun k hk => memGet_storeRegBlock s x k hk, ?_, storeAtI_keeps s _⟩⟩
    have hbytes := storeAtI_bytes s (s.regBlock x)
    rwa [length_regBlock] at hbytes

/-- Settles O53: the registers loaded are `V0 .. Vx`. -/
theorem loadRegisters : Obligations.LoadRegisters := by
  intro x s
  rcases execLdVxMem_cases x s with ⟨hge, hfault⟩ | ⟨hlt, hnext⟩
  · exact ⟨fun _ => hfault, fun h => by omega⟩
  · exact ⟨fun h => by omega, fun _ => ⟨_, hnext, reg_loadBlock s x, loadBlock_keeps s x⟩⟩

theorem execLdMemVx_next {x : RegIdx} {s : State} (h : s.i.toNat + x.val < 4096) :
    exec (.ldMemVx x) s = .next (s.storeAtI (s.regBlock x)) :=
  withAccess_next s _ _ (.inr (by omega))

theorem execLdVxMem_next {x : RegIdx} {s : State} (h : s.i.toNat + x.val < 4096) :
    exec (.ldVxMem x) s = .next (s.loadBlock x) :=
  withAccess_next s _ _ (.inr (by omega))

/-- Settles O54: each byte loaded is the register that was stored there. -/
theorem dumpThenLoad : Obligations.DumpThenLoad := by
  intro x s h
  refine ⟨_, execLdMemVx_next h, fun u hmem hi => ⟨_, execLdVxMem_next (hi ▸ h), fun k => ?_⟩⟩
  rw [reg_loadBlock, hmem, hi]
  split
  · next hk => exact memGet_storeRegBlock s x k hk
  · rfl

/-! ### What the next fetch sees (20_memory.md R71) -/

theorem regBlock_eq_map (s : State) (x : RegIdx) : s.regBlock x = ((List.finRange 16).take (x.val + 1)).map s.reg := by
  refine List.ext_getElem (by simp) fun k hk _ => ?_
  rw [getElem_regBlock]
  simp

/-- Settles O55: each of the four writers stores its bytes with `storeBytes`, which the fetch reads through. -/
theorem storedBytesAreFetched : Obligations.StoredBytesAreFetched := by
  intro s
  refine ⟨fun x h => ⟨_, execLdMemVx_next h, ?_⟩, fun x h => ?_, fun bytes hlen => ?_,
    hostLoadFont s, rfl, fetchSeesStore_of_mem (hostLoadFont_mem s)⟩
  · rw [← regBlock_eq_map]
    exact fetchSeesStore_of_mem (storeAtI_mem s _)
  · exact ⟨_, withAccess_next s 3 _ (.inr (by omega)), fetchSeesStore_of_mem (storeAtI_mem s (bcdDigits (s.reg x)))⟩
  · rcases hostLoadRom_cases bytes s with ⟨hlong, -⟩ | ⟨-, hnext⟩
    · omega
    · exact ⟨_, hnext, fetchSeesStore_of_mem rfl⟩

end Sys2Proof.Machine
end
